-- ==== Sys2Proof/Word.lean ====
section
/-! DEFINITION. The word types of the block: the 32-bit host word (R13) and the byte. -/

namespace Sys2Proof

/-- The host data word, 32 bits (R13). -/
abbrev Word := BitVec 32

/-- A byte of PIN, POUT or a frame (R33, R36, R37). -/
abbrev Byte := BitVec 8

end Sys2Proof
end

