-- ==== Sys2Proof/Syntax.lean ====
section
/-! DEFINITION. The block's six commands (30_encoding.md R92), the causes a command word or a command can be turned
away with (R206), and the lines of a host program (R103). -/

namespace Sys2Proof

/-- One constructor per row of spec/opcode_table.json (R92). -/
inductive Instr where
  /-- `ENCODE r` (R131): `r` is the RTR flag, `CMD.R`. -/
  | encode (r : Bool)
  /-- `DECODE_RTR k` (R141): `k` is the frame index, `CMD.IDX`, a natural number 0 to 31 (R93). -/
  | decodeRtr (k : Nat)
  /-- `EXTRACT_PAYLOAD` (R147). -/
  | extractPayload
  /-- `SET_EXT_HEADER` (R171). -/
  | setExtHeader
  /-- `SEND` (R177). -/
  | send
  /-- `RECEIVE` (R183). -/
  | receive
  deriving DecidableEq, Repr

/-- The precondition-fault causes (R24, R206). -/
inductive Cause where
  | reservedOp
  | reservedField
  | illegalId
  | indexRange
  | noValidBuffer
  | malformedDlc
  deriving DecidableEq, Repr

/-- A host temporary `$t`, named by a number (R103). -/
abbrev Temp := Nat

/-- A label of a host program, named by a number (R103). -/
abbrev Label := Nat

/-- The value operand of a host line: a constant or a temporary (R103). -/
inductive Operand where
  | const (w : Word)
  | temp (t : Temp)
  deriving DecidableEq, Repr

/-- The access shapes R62 does not admit, whatever the offset. -/
inductive OddShape where
  | byte
  | halfword
  | doubleword
  | burst
  deriving DecidableEq, Repr

/-- One line of the host's program (R103). The last two are the model's own: an access of a shape the block does
not admit (R62), and the platform's reset (R240), which lands between two lines (log 6). -/
inductive HostLine where
  | wr (off : Nat) (v : Operand)
  | rd (off : Nat) (t : Temp)
  | mov (t : Temp) (v : Operand)
  | add (t u : Temp) (v : Operand)
  | and (t u : Temp) (v : Operand)
  | beq (t : Temp) (v : Operand) (l : Label)
  | bne (t : Temp) (v : Operand) (l : Label)
  | label (l : Label)
  | halt
  | oddAccess (shape : OddShape) (off : Nat)
  | platformReset
  deriving DecidableEq, Repr

end Sys2Proof
end

