-- ==== Sys2Proof/WellFormed.lean ====
section
/-! DEFINITION. The terms of Syntax.lean that the spec's encodings and notation can express. -/

namespace Sys2Proof

/-- The index of DECODE_RTR fits its 5-bit field (R13, R91, R93); every other command is well formed. -/
def wellFormed : Instr → Bool
  | .encode _ => true
  | .decodeRtr k => decide (k < 32)
  | .extractPayload => true
  | .setExtHeader => true
  | .send => true
  | .receive => true

/-- A command that a command word encodes. -/
abbrev WellFormed (i : Instr) : Prop := wellFormed i = true

/-- An offset of the host window at which an access is admitted: below 4096 (R60) and a multiple of 4 (R62). -/
def admitted (off : Nat) : Bool := decide (off < 0x1000) && decide (off % 4 = 0)

/-- The labels a program defines, in order (R103). -/
def labelsOf : List HostLine → List Label
  | [] => []
  | .label l :: rest => l :: labelsOf rest
  | _ :: rest => labelsOf rest

/-- A line that makes only admitted accesses and branches only to the given labels (R62, R103). -/
def lineWellFormed (ls : List Label) : HostLine → Bool
  | .wr off _ => admitted off
  | .rd off _ => admitted off
  | .mov _ _ => true
  | .add _ _ _ => true
  | .and _ _ _ => true
  | .beq _ _ l => ls.contains l
  | .bne _ _ l => ls.contains l
  | .label _ => true
  | .halt => true
  | .oddAccess _ _ => false
  | .platformReset => true

/-- A host program whose labels are distinct (C13), whose branches have a target (R103) and whose accesses are
admitted (R62). -/
def programWellFormed (p : List HostLine) : Bool :=
  decide (labelsOf p).Nodup && p.all (lineWellFormed (labelsOf p))

end Sys2Proof
end

