-- ==== Sys2Proof/Decode.lean ====
section
/-! DEFINITION. The decoder of the command word (30_encoding.md R91, R99 to R101), then the encoder (R92, R102). -/

namespace Sys2Proof

/-- `OP = w[3:0]` (R91). -/
def opField (w : Word) : BitVec 4 := w.extractLsb' 0 4

/-- `R = w[8]` (R91). -/
def rField (w : Word) : Bool := w.getLsbD 8

/-- `IDX = w[20:16]` (R91). -/
def idxField (w : Word) : BitVec 5 := w.extractLsb' 16 5

/-- The reserved bits [31:21], [15:9] and [7:4] are all 0 (R100). -/
def reservedClear (w : Word) : Bool :=
  w.extractLsb' 21 11 == 0#11 && w.extractLsb' 9 7 == 0#7 && w.extractLsb' 4 4 == 0#4

/-- What the decoder makes of a word: a command, or the cause it is turned away with (R99). -/
inductive Decoded where
  | instr (i : Instr)
  | rejected (c : Cause)
  deriving DecidableEq, Repr

/-- The command `OP` names, with its operand fields (R92). -/
def commandOf (w : Word) : Decoded :=
  match (opField w).toNat with
  | 1 => .instr (.encode (rField w))
  | 2 => .instr (.decodeRtr (idxField w).toNat)
  | 3 => .instr .extractPayload
  | 4 => .instr .setExtHeader
  | 5 => .instr .send
  | 6 => .instr .receive
  | _ => .rejected .reservedOp

/-- The decoder, step by step as R99 gives it. Total: every word names a command or has a cause. -/
def decode (w : Word) : Decoded :=
  if opField w = 0#4 ∨ 7 ≤ (opField w).toNat then .rejected .reservedOp
  else if reservedClear w = false then .rejected .reservedField
  else if opField w ≠ 1#4 ∧ rField w = true then .rejected .reservedField
  else if opField w ≠ 2#4 ∧ idxField w ≠ 0#5 then .rejected .reservedField
  else commandOf w

/-- The operation number of a command (R92). -/
def opOf : Instr → BitVec 4
  | .encode _ => 1#4
  | .decodeRtr _ => 2#4
  | .extractPayload => 3#4
  | .setExtHeader => 4#4
  | .send => 5#4
  | .receive => 6#4

/-- The `R` field of a command's word (R94). -/
def rOf : Instr → Bool
  | .encode r => r
  | _ => false

/-- The `IDX` field of a command's word (R94). -/
def idxOf : Instr → BitVec 5
  | .decodeRtr k => BitVec.ofNat 5 k
  | _ => 0#5

/-- A word of format CMDW: `OP` in [3:0], `R` in [8], `IDX` in [20:16], every other bit 0 (R91). -/
def cmdw (idx : BitVec 5) (r : Bool) (op : BitVec 4) : Word :=
  (idx.setWidth 32 <<< 16) ||| ((BitVec.ofBool r).setWidth 32 <<< 8) ||| op.setWidth 32

/-- The command word of a well-formed command (R91, R94, R102). -/
def encode (i : Instr) : Word := cmdw (idxOf i) (rOf i) (opOf i)

/-- A row of spec/opcode_table.json: the fixed bits of a command's word. -/
structure OpRow where
  pattern : Word
  mask    : Word
  deriving DecidableEq, Repr

/-- The word has the row's fixed bits. -/
def OpRow.hits (row : OpRow) (w : Word) : Bool := w &&& row.mask == row.pattern

/-- The row of a command in spec/opcode_table.json. -/
def opRow : Instr → OpRow
  | .encode _ => ⟨0x00000001#32, 0xFFFFFEFF#32⟩
  | .decodeRtr _ => ⟨0x00000002#32, 0xFFE0FFFF#32⟩
  | .extractPayload => ⟨0x00000003#32, 0xFFFFFFFF#32⟩
  | .setExtHeader => ⟨0x00000004#32, 0xFFFFFFFF#32⟩
  | .send => ⟨0x00000005#32, 0xFFFFFFFF#32⟩
  | .receive => ⟨0x00000006#32, 0xFFFFFFFF#32⟩

/-- The command the decoder reads from the `nbits`-bit table word `w`: a command is always one 32-bit word (R90),
so a table word shorter than that has zeros above it and a longer one is no command word. -/
def decodeTableWord (nbits w : Nat) : Option Instr :=
  if w % 2 ^ nbits < 2 ^ 32 then
    match decode (BitVec.ofNat 32 (w % 2 ^ nbits)) with
    | .instr i => some i
    | .rejected _ => none
  else none

end Sys2Proof
end

