-- ==== Sys2Proof/Config.lean ====
section
/-! DEFINITION. The parameters of the block (00_scope.md section 4), the data the environment hands it, and the
free values: opaque constants with no body, for every value the spec leaves to a draw (R16, R34, R36, R37, R170). -/

namespace Sys2Proof

/-! The literals of R7 to R12, each one named constant (I9). UNVERIFIED: the spec says its source's literals are
unaudited; unsafe, log 12. -/

/-- `CAN_BUFFER_SIZE` (R7). -/
abbrev Config.canBufferSize : Nat := 25

/-- `MAX_FRAME_DATA` (R8). -/
abbrev Config.maxFrameData : Nat := 8

/-- `MAX_PAYLOAD` (R9). -/
abbrev Config.maxPayload : Nat := Config.canBufferSize * Config.maxFrameData

/-- `ID_WIDTH` (R10). -/
abbrev Config.idWidth : Nat := 29

/-- `STD_ID_WIDTH` (R10). -/
abbrev Config.stdIdWidth : Nat := 11

/-- `RX_MAX_FRAMES` (R11). -/
abbrev Config.rxMaxFrames : Nat := 25

/-- `RTR_BIT` (R12). -/
abbrev Config.rtrBit : Nat := 4

/-- The byte ENCODE pads a frame's data with (R137, decision D16). -/
abbrev Config.padByte : Byte := 0

/-- `HDR_MODE.EXT` after reset: standard (R28, R240); I18 lets a model take it as a parameter (log 15). -/
abbrev Config.hdrExtReset : Bool := false

/-- The 4 KiB page the platform puts the host window at. `CODEC_BASE` is OPEN in the spec (R61, I16): opaque,
log 11. -/
opaque Config.codecBasePage : Nat

/-- `CODEC_BASE`, a multiple of 4096 (R61). -/
def Config.codecBase : Nat := 4096 * Config.codecBasePage

/-! The data of a transport call. -/

/-- An arbitration ID, 29 bits (R10). -/
abbrev ArbId := BitVec Config.idWidth

/-- A CAN frame as a slot of the frame buffer holds it (R33, R98). -/
structure Frame where
  id   : ArbId
  dlc  : Byte
  data : Vector Byte Config.maxFrameData
  deriving DecidableEq, Repr

/-- A list of at most 25 frames, in index order: what the frame buffer can hold (R7) and what the transport can
deliver (R170, R184). -/
structure Batch where
  frames : List Frame
  bound  : frames.length ≤ Config.canBufferSize
  deriving DecidableEq, Repr

/-- The batch of no frame. -/
def Batch.empty : Batch := ⟨[], Nat.zero_le _⟩

/-- What `set_extended_header` and `send` answer (R170). -/
inductive LinkAnswer where
  | ok
  | err (code : Word)
  deriving DecidableEq, Repr, Inhabited

/-- What `receive` answers (R170): at most 25 frames of any field values, or an error. -/
inductive RxAnswer where
  | err (code : Word)
  | ok (delivered : Batch)
  deriving DecidableEq, Repr, Inhabited

/-! The free values. Each is applied to the number of the draw, a plain counter of State; a byte or slot also to
its index, so that no two draws share a value (log 1, log 2). Safe: nothing can be proved of any of them. -/

/-- Byte `i` of an unspecified memory content as the `draw`-th draw gives it (R36, R37). -/
opaque Config.freeByte (draw i : Nat) : Byte

/-- The word an unspecified frame slot reads as at the `draw`-th draw (R34, R67). -/
opaque Config.freeSlotWord (draw : Nat) : Word

/-- What `set_extended_header` answers at the `draw`-th draw (R170). -/
opaque Config.headerAnswer (draw : Nat) : LinkAnswer

/-- What `send` answers at the `draw`-th draw (R170). -/
opaque Config.sendAnswer (draw : Nat) : LinkAnswer

/-- What `receive` answers at the `draw`-th draw (R170). -/
opaque Config.rxAnswer (draw : Nat) : RxAnswer

end Sys2Proof
end

