-- ==== Sys2Proof/Machine/State.lean ====
section
/-! DEFINITION. The state of the block (10_state.md), of the host that drives it (R103) and of the transport port
as the model records it (R170), as plain data; the reasons a step can stop; the state after reset (R240). -/

namespace Sys2Proof.Machine

/-- A byte memory, as the cells that have been written, by strictly rising index. An index that is not listed has
no specified content: it reads as a draw (R36, R37). -/
abbrev Memory := List Host.Cell

/-- Every cell's index is above `a`, and the indexes rise strictly. -/
def Memory.risesAbove (a : Nat) : List Host.Cell → Bool
  | [] => true
  | c :: rest => decide (a < c.1) && Memory.risesAbove c.1 rest

/-- The canonical form: indexes strictly rising. An unlisted index has no value, so no entry can equal it. -/
def Memory.wf : List Host.Cell → Bool
  | [] => true
  | c :: rest => Memory.risesAbove c.1 rest

/-- The fields of `STATUS` (R22). -/
structure StatusReg where
  code  : BitVec 2
  cause : BitVec 4
  deriving DecidableEq, Repr

/-- The outcome a command ends with (R17). -/
inductive CmdOutcome where
  | ok
  | aborted
  | precondFault (c : Cause)
  | transportError (code : Word)
  deriving DecidableEq, Repr

/-- A call the block makes on the transport port, with what it hands over (R170, R179, R184). -/
inductive TransportCall where
  | setExtendedHeader
  | send (frames : List Frame)
  | receive (maxFrames : Nat)
  deriving DecidableEq, Repr

/-- The transport port: the calls made so far, newest first, and the answers the environment has already chosen
for the next calls, oldest first. Where no answer is queued the answer is a free value (log 2, log 9). -/
structure Transport where
  calls         : List TransportCall
  headerAnswers : List LinkAnswer
  sendAnswers   : List LinkAnswer
  rxAnswers     : List RxAnswer
  deriving DecidableEq, Repr

/-- The host: its program, the line it is at, and its temporaries in order of name; a temporary that is not listed
has not been written and has no value (R103). -/
structure HostSide where
  program : List HostLine
  pos     : Nat
  temps   : List (Temp × Word)
  deriving DecidableEq, Repr

/-- The whole state. Each register field is held at its own width; the bits the spec says read 0 are not stored. -/
structure State where
  /-- `STATUS` (R22). -/
  status        : StatusReg
  /-- `ARB_ID.ID` (R25). -/
  arbId         : ArbId
  /-- `PAYLOAD_LEN` (R26). -/
  payloadLen    : Word
  /-- `FB_INFO.VALID` (R27). -/
  fbValid       : Bool
  /-- `FB[0 .. FB_INFO.LEN - 1]`, the valid slots; `FB_INFO.LEN` is their number (R27, R33, R34; log 8). -/
  fb            : Batch
  /-- `HDR_MODE.EXT` (R28). -/
  hdrExt        : Bool
  /-- `RESULT.RTR` (R29). -/
  resultRtr     : Bool
  /-- `OUT_LEN.COUNT` (R30). -/
  outCount      : BitVec 8
  /-- `TRANSPORT_CODE` (R31). -/
  transportCode : Word
  /-- `PIN` (R36). -/
  pin           : Memory
  /-- `POUT` (R37). -/
  pout          : Memory
  /-- The transport port, as the model records it (R170). -/
  transport     : Transport
  /-- The host (R103). -/
  host          : HostSide
  /-- MODEL's own: the number of the next draw (log 1). -/
  draws         : Nat
  /-- MODEL's own: the outcome of every command, newest first (R211; log 5). -/
  record        : List CmdOutcome
  deriving DecidableEq, Repr

/-- Why the machine stops. -/
inductive Fault where
  /-- Raised by a host access that is not an aligned 32-bit one: R62 gives it no step. Safe (log 3). -/
  | accessNotAdmitted (off : Nat)
  /-- Raised by a host access outside the 4096 bytes of the window (R60). Safe (log 3). -/
  | outsideWindow (off : Nat)
  /-- Raised by a host line that reads a temporary before it is written: R103 faults the program there. Safe. -/
  | tempUnwritten (t : Temp)
  /-- Raised by a branch to a label the program does not define (R103). Safe (log 4). -/
  | labelUndefined (l : Label)
  deriving DecidableEq, Repr

/-- Why an instruction has no meaning. -/
inductive Refusal where
  /-- Raised by an arm of exec whose instruction is not modelled; no arm raises it. Safe. -/
  | notModelled (mnemonic : String)
  deriving DecidableEq, Repr

/-- The three outcomes of a step of this machine. -/
abbrev Result := Host.Outcome State Fault Refusal

/-- The machine right after reset: the table of R240; the host and the model's own fields at the values of log 1,
log 2, log 4, log 5 and log 9. -/
def State.reset : State where
  status        := ⟨0#2, 0#4⟩
  arbId         := 0
  payloadLen    := 0
  fbValid       := false
  fb            := Batch.empty
  hdrExt        := Config.hdrExtReset
  resultRtr     := false
  outCount      := 0
  transportCode := 0
  pin           := []
  pout          := []
  transport     := ⟨[], [], [], []⟩
  host          := ⟨[], 0, []⟩
  draws         := 0
  record        := []

end Sys2Proof.Machine
end

