-- ==== Sys2Proof/Machine/Flags.lean ====
section
/-! DEFINITION. The flags and codes of the block: the DLC byte (R95, R97), the legality of an ID (R38), the
`STATUS` fields of an outcome (R201), and the words the host reads the registers as (R22 to R31). -/

namespace Sys2Proof.Machine

/-! The DLC byte. -/

/-- `zext_8(len | (rtr << 4))`, the byte ENCODE writes (R95). -/
def dlcByte (len : Nat) (rtr : Bool) : Byte := BitVec.ofNat 8 (len ||| (rtr.toNat <<< Config.rtrBit))

/-- `is_rtr = b[4]`, no other bit matters (R97, R144; C2). -/
def dlcIsRtr (b : Byte) : Bool := b.getLsbD Config.rtrBit

/-- `length = b[3:0]` (R97). -/
def dlcLength (b : Byte) : Nat := (b.extractLsb' 0 4).toNat

/-- The length field is 0 to 8; 9 to 15 is malformed (R97). -/
def dlcWellFormed (b : Byte) : Bool := decide (dlcLength b ≤ Config.maxFrameData)

/-! The header mode. -/

/-- In standard mode an ID is legal iff it is below 2^11; in extended mode every ID is (R38). -/
def idLegal (ext : Bool) (id : ArbId) : Bool := ext || decide (id.toNat < 2 ^ Config.stdIdWidth)

/-! Outcomes. -/

/-- `STATUS.CAUSE` of a precondition fault (R24). -/
def causeCode : Cause → BitVec 4
  | .reservedOp => 1#4
  | .reservedField => 2#4
  | .illegalId => 3#4
  | .indexRange => 4#4
  | .noValidBuffer => 5#4
  | .malformedDlc => 6#4

/-- The fields of `STATUS` an outcome writes (R23, R201). -/
def statusOf : CmdOutcome → StatusReg
  | .ok => ⟨0#2, 0#4⟩
  | .aborted => ⟨1#2, 0#4⟩
  | .precondFault c => ⟨2#2, causeCode c⟩
  | .transportError _ => ⟨3#2, 0#4⟩

/-- The `TRANSPORT_CODE` an outcome writes (R31, R201). -/
def transportCodeOf : CmdOutcome → Word
  | .ok => 0#32
  | .aborted => 0#32
  | .precondFault _ => 0#32
  | .transportError code => code

/-! The words of the registers. -/

/-- `STATUS`: CODE in [1:0], CAUSE in [11:8], the rest 0 (R22). -/
def statusWord (st : StatusReg) : Word := (st.cause.setWidth 32 <<< 8) ||| st.code.setWidth 32

/-- `ARB_ID`: ID in [28:0], [31:29] 0 (R25). -/
def arbIdWord (id : ArbId) : Word := id.setWidth 32

/-- `FB_INFO`: LEN in [4:0], VALID in [8], the rest 0 (R27). -/
def fbInfoWord (valid : Bool) (len : Nat) : Word :=
  ((BitVec.ofBool valid).setWidth 32 <<< 8) ||| (BitVec.ofNat 5 len).setWidth 32

/-- A register whose one field is bit 0: `HDR_MODE` (R28), `RESULT` (R29). -/
def flagWord (b : Bool) : Word := (BitVec.ofBool b).setWidth 32

/-- `OUT_LEN`: COUNT in [7:0], the rest 0 (R30). -/
def outLenWord (count : BitVec 8) : Word := count.setWidth 32

/-- `FB_INFO.LEN` (R27). -/
def State.fbLen (s : State) : Nat := s.fb.frames.length

end Sys2Proof.Machine
end

