-- ==== Sys2Proof/Machine/Ops.lean ====
section
/-! DEFINITION. The named operations over the block's memories and registers: MemRead and MemWrite (R16), draws,
the transport port (R170), ReplaceFB and InvalidateFB (R42), the end of a command (R200 to R205), and reset (R240).
A command raises no trap and nothing returns from one (R209, R210): ending with an outcome is all there is. -/

namespace Sys2Proof.Machine

/-! Memories. -/

/-- The byte at index `a`, where one has been written. -/
def readCell (m : Memory) (a : Nat) : Option Byte :=
  match m with
  | [] => none
  | c :: rest => if c.1 = a then some c.2 else readCell rest a

/-- The memory with byte `b` at index `a`, in canonical form. -/
def writeCell (m : Memory) (a : Nat) (b : Byte) : Memory :=
  match m with
  | [] => [(a, b)]
  | c :: rest =>
    if c.1 < a then c :: writeCell rest a b
    else if c.1 = a then (a, b) :: rest
    else (a, b) :: c :: rest

/-- The byte at index `a` as an access reads it: a byte never written is the `draw`-th draw (R36). -/
def byteAt (m : Memory) (draw a : Nat) : Byte := (readCell m a).getD (Config.freeByte draw a)

/-- `MemRead(space, i, n)`: the `n` bytes from index `i`, in increasing order (R16). -/
def memRead (m : Memory) (draw i n : Nat) : List Byte := (List.range n).map fun j => byteAt m draw (i + j)

/-- `MemWrite(space, i, n, bytes)`: the bytes from index `i` up (R16). -/
def memWrite (m : Memory) (i : Nat) (bytes : List Byte) : Memory :=
  match bytes with
  | [] => m
  | b :: rest => memWrite (writeCell m i b) (i + 1) rest

/-- Byte `b` of a host word: bits [8b+7:8b] (R65). -/
def laneOf (w : Word) (b : Nat) : Byte := w.extractLsb' (8 * b) 8

/-- The four bytes of a host word, the lowest offset first (R65). -/
def lanes (w : Word) : List Byte := [laneOf w 0, laneOf w 1, laneOf w 2, laneOf w 3]

/-- The word `{b3, b2, b1, b0}` of four bytes (R65). -/
def wordOfLanes (b0 b1 b2 b3 : Byte) : Word := b3 ++ b2 ++ b1 ++ b0

/-! Draws. -/

/-- The state after an access that may have drawn: the next draw has the next number (log 1). -/
def State.drawn (s : State) : State := { s with draws := s.draws + 1 }

/-! The frame buffer (R42). -/

/-- `ReplaceFB(frames)`. -/
def State.replaceFB (s : State) (b : Batch) : State :=
  { s with fb := b, fbValid := true, resultRtr := false, outCount := 0 }

/-- `InvalidateFB()`. -/
def State.invalidateFB (s : State) : State :=
  { s with fb := Batch.empty, fbValid := false, resultRtr := false, outCount := 0 }

/-! The results of the commands. -/

/-- `RESULT.RTR <- b` (R141). -/
def State.setResult (s : State) (b : Bool) : State := { s with resultRtr := b }

/-- `POUT[0..] <- bytes; OUT_LEN.COUNT <- their number` (R147). -/
def State.setExtracted (s : State) (bytes : List Byte) : State :=
  { s with pout := memWrite s.pout 0 bytes, outCount := BitVec.ofNat 8 bytes.length }

/-- `HDR_MODE.EXT <- 1` (R171). -/
def State.setExtended (s : State) : State := { s with hdrExt := true }

/-! The end of a command. -/

/-- A command ends with outcome `o`: `STATUS` and `TRANSPORT_CODE` are written (R200, R201), and the model's record
keeps the outcome (R211). -/
def State.endWith (s : State) (o : CmdOutcome) : State :=
  { s with status := statusOf o, transportCode := transportCodeOf o, record := o :: s.record }

/-! The transport port (R170): one call, its answer the next queued one, or else a free value. -/

/-- The answer the next `set_extended_header` call gets. -/
def State.headerAnswer (s : State) : LinkAnswer :=
  s.transport.headerAnswers.head?.getD (Config.headerAnswer s.draws)

/-- The answer the next `send` call gets. -/
def State.sendAnswer (s : State) : LinkAnswer :=
  s.transport.sendAnswers.head?.getD (Config.sendAnswer s.draws)

/-- The answer the next `receive` call gets. -/
def State.rxAnswer (s : State) : RxAnswer :=
  s.transport.rxAnswers.head?.getD (Config.rxAnswer s.draws)

/-- The port after a `set_extended_header` call. -/
def State.callSetExtendedHeader (s : State) : State :=
  { s with
    transport := { s.transport with
      calls := .setExtendedHeader :: s.transport.calls
      headerAnswers := s.transport.headerAnswers.tail }
    draws := s.draws + 1 }

/-- The port after a `send` call with the given frames (R179). -/
def State.callSend (s : State) (frames : List Frame) : State :=
  { s with
    transport := { s.transport with
      calls := .send frames :: s.transport.calls
      sendAnswers := s.transport.sendAnswers.tail }
    draws := s.draws + 1 }

/-- The port after a `receive` call (R184). -/
def State.callReceive (s : State) : State :=
  { s with
    transport := { s.transport with
      calls := .receive Config.rxMaxFrames :: s.transport.calls
      rxAnswers := s.transport.rxAnswers.tail }
    draws := s.draws + 1 }

/-! Reset. -/

/-- The platform asserts the reset input (R240): every piece of the block's state takes its reset value. The host,
the transport and the model's own fields are outside the block and stay (log 6). -/
def State.resetBlock (s : State) : State :=
  { State.reset with transport := s.transport, host := s.host, draws := s.draws, record := s.record }

end Sys2Proof.Machine
end

