-- ==== Sys2Proof/Machine/Operands.lean ====
section
/-! DEFINITION. The operands of the commands (30_encoding.md R93) and what ENCODE and EXTRACT_PAYLOAD build from
them: the frame count and chunks (R134), the frames (R133, R136 to R138) and the extracted bytes (R149). -/

namespace Sys2Proof.Machine

/-- `n = PAYLOAD_LEN`, a natural number (R93). -/
def State.payloadLength (s : State) : Nat := s.payloadLen.toNat

/-- `full_frames = n div 8` (R134). -/
def fullFrames (n : Nat) : Nat := n / Config.maxFrameData

/-- `remainder = n mod 8` (R134). -/
def remainder (n : Nat) : Nat := n % Config.maxFrameData

/-- `total = full_frames + (1 if remainder > 0 else 0)` (R134). -/
def frameCount (n : Nat) : Nat := fullFrames n + if 0 < remainder n then 1 else 0

/-- `chunk_x`: the remainder in the last frame where there is one, else 8 (R134). -/
def chunkLen (n x : Nat) : Nat :=
  if x + 1 = frameCount n ∧ 0 < remainder n then remainder n else Config.maxFrameData

/-- The 8 data bytes of a frame whose first bytes are `bytes`; the rest is padding (R137). -/
def padData (bytes : List Byte) : Vector Byte Config.maxFrameData :=
  ⟨⟨(bytes ++ List.replicate Config.maxFrameData Config.padByte).take Config.maxFrameData⟩, by simp⟩

/-- Frame `x` of ENCODE's data path: the ID, the chunk's length with the RTR bit 0, and the chunk of PIN (R136 to
R138). -/
def dataFrame (s : State) (x : Nat) : Frame where
  id   := s.arbId
  dlc  := dlcByte (chunkLen s.payloadLength x) false
  data := padData (memRead s.pin s.draws (Config.maxFrameData * x) (chunkLen s.payloadLength x))

/-- The frames of ENCODE's data path, in increasing `x` (R136). -/
def dataFrames (s : State) : List Frame := (List.range (frameCount s.payloadLength)).map (dataFrame s)

/-- The one frame of ENCODE's RTR path: length field 0, RTR bit 1, all data bytes padding (R133). -/
def rtrFrame (s : State) : Frame where
  id   := s.arbId
  dlc  := dlcByte 0 true
  data := padData []

/-- The batch of ENCODE's RTR path (R133). -/
def rtrBatch (s : State) : Batch := ⟨[rtrFrame s], by simp⟩

/-- The first `c` data bytes of a frame, `c` its length field; the RTR bit excludes no frame (R149). -/
def frameBytes (f : Frame) : List Byte := f.data.toList.take (dlcLength f.dlc)

/-- The bytes of a batch: each frame's, in buffer order (R149). -/
def batchBytes (frames : List Frame) : List Byte := frames.flatMap frameBytes

/-- Every frame's length field is 0 to 8 (R148). -/
def allWellFormed (frames : List Frame) : Bool := frames.all fun f => dlcWellFormed f.dlc

end Sys2Proof.Machine
end

