-- ==== Sys2Proof/Machine/Boundary.lean ====
section
/-! DEFINITION. The boundary operations (41_boundary.md): SET_EXT_HEADER (R171), SEND (R177), RECEIVE (R183). -/

namespace Sys2Proof.Machine

/-- SET_EXT_HEADER (R171): one transport call; the mode becomes extended only on ok. -/
def execSetExtHeader (s : State) : Result :=
  .next (match s.headerAnswer with
    | .ok => s.callSetExtendedHeader.setExtended.endWith .ok
    | .err code => s.callSetExtendedHeader.endWith (.transportError code))

/-- SEND (R177): with a valid buffer, one transport call that hands over the valid frames in index order (R179);
nothing but the outcome is written (R180). -/
def execSend (s : State) : Result :=
  if s.fbValid = false then .next (s.endWith (.precondFault .noValidBuffer))
  else .next (match s.sendAnswer with
    | .ok => (s.callSend s.fb.frames).endWith .ok
    | .err code => (s.callSend s.fb.frames).endWith (.transportError code))

/-- RECEIVE (R183): one transport call for at most 25 frames; the batch as delivered on ok (R185), no buffer on an
error (R186). -/
def execReceive (s : State) : Result :=
  .next (match s.rxAnswer with
    | .ok b => (s.callReceive.replaceFB b).endWith .ok
    | .err code => s.callReceive.invalidateFB.endWith (.transportError code))

end Sys2Proof.Machine
end

