-- ==== Sys2Proof/Machine/Codec.lean ====
section
/-! DEFINITION. The codec operations (40_codec.md): ENCODE (R131), DECODE_RTR (R141), EXTRACT_PAYLOAD (R147). -/

namespace Sys2Proof.Machine

/-- ENCODE `r` (R131): the ID check first (R132), then the RTR path (R133), then the capacity check (R135), then the
data path (R136 to R139). -/
def execEncode (r : Bool) (s : State) : Result :=
  if idLegal s.hdrExt s.arbId = false then .next (s.endWith (.precondFault .illegalId))
  else if r then .next ((s.replaceFB (rtrBatch s)).endWith .ok)
  else if h : frameCount s.payloadLength ≤ Config.canBufferSize then
    .next ((s.drawn.replaceFB ⟨dataFrames s, by simpa [dataFrames] using h⟩).endWith .ok)
  else .next (s.invalidateFB.endWith .aborted)

/-- DECODE_RTR `k` (R141): the buffer check first (R142), then the index check (R143), then bit 4 of the frame's DLC
byte (R144). -/
def execDecodeRtr (k : Nat) (s : State) : Result :=
  if s.fbValid = false then .next (s.endWith (.precondFault .noValidBuffer))
  else match s.fb.frames[k]? with
    | none => .next (s.endWith (.precondFault .indexRange))
    | some f => .next ((s.setResult (dlcIsRtr f.dlc)).endWith .ok)

/-- EXTRACT_PAYLOAD (R147): the buffer check first (R142), then every valid frame's length (R148), then the
concatenation into POUT from byte 0 and its length into OUT_LEN (R149, R150). -/
def execExtractPayload (s : State) : Result :=
  if s.fbValid = false then .next (s.endWith (.precondFault .noValidBuffer))
  else if allWellFormed s.fb.frames = false then .next (s.endWith (.precondFault .malformedDlc))
  else .next ((s.setExtracted (batchBytes s.fb.frames)).endWith .ok)

end Sys2Proof.Machine
end

