-- ==== Sys2Proof/Machine/Dispatch.lean ====
section
/-! DEFINITION. One arm per command: the meaning of each. -/

namespace Sys2Proof.Machine

def exec (i : Instr) (s : State) : Host.Outcome State Fault Refusal :=
  match i with
  | .encode r => Sys2Proof.Machine.execEncode r s
  | .decodeRtr k => Sys2Proof.Machine.execDecodeRtr k s
  | .extractPayload => Sys2Proof.Machine.execExtractPayload s
  | .setExtHeader => Sys2Proof.Machine.execSetExtHeader s
  | .send => Sys2Proof.Machine.execSend s
  | .receive => Sys2Proof.Machine.execReceive s

end Sys2Proof.Machine
end

