-- ==== Sys2Proof/Machine/HostPort.lean ====
section
/-! DEFINITION. The host port: the window's map (20_memory.md R60 to R67), the command a CMD write issues (R21, R99
to R101), and the admitted read and write accesses (R62, R64, R72). -/

namespace Sys2Proof.Machine

/-! The address of the window (R61). The steps below work on offsets, as the host notation does (R103). -/

/-- The absolute address of an offset: `CODEC_BASE` plus it, with no wrap-around (R61). -/
def addressOf (off : Nat) : Nat := Config.codecBase + off

/-- The offset of an absolute address, where it lies in the window (R60, R61). -/
def offsetOf (addr : Nat) : Option Nat :=
  if Config.codecBase ≤ addr ∧ addr ≤ Config.codecBase + 0xFFF then some (addr - Config.codecBase) else none

/-- What stands at a word of the window (R63). -/
inductive Place where
  | cmd
  | status
  | arbId
  | payloadLen
  | fbInfo
  | hdrMode
  | result
  | outLen
  | transportCode
  /-- The word of PIN whose lowest byte is PIN[i] (R65). -/
  | pin (i : Nat)
  /-- The word of POUT whose lowest byte is POUT[i] (R66). -/
  | pout (i : Nat)
  /-- Word `part` (0 to 3) of frame slot `k` (R67). -/
  | slot (k part : Nat)
  | reserved
  deriving DecidableEq, Repr

/-- The registers of the window, offsets 0x000 to 0x0FF (R63); the rest of these offsets is reserved. -/
def registerAt (off : Nat) : Place :=
  match off with
  | 0x000 => .cmd
  | 0x004 => .status
  | 0x008 => .arbId
  | 0x00C => .payloadLen
  | 0x010 => .fbInfo
  | 0x014 => .hdrMode
  | 0x018 => .result
  | 0x01C => .outLen
  | 0x020 => .transportCode
  | _ => .reserved

/-- The window's map (R63). -/
def placeOf (off : Nat) : Place :=
  if off < 0x100 then registerAt off
  else if off < 0x1C8 then .pin (off - 0x100)
  else if off < 0x200 then .reserved
  else if off < 0x2C8 then .pout (off - 0x200)
  else if off < 0x400 then .reserved
  else if off < 0x590 then .slot ((off - 0x400) / 16) ((off - 0x400) % 16 / 4)
  else .reserved

/-- The word of PIN from byte `i` (R65). -/
def State.pinWord (s : State) (i : Nat) : Word :=
  wordOfLanes (byteAt s.pin s.draws i) (byteAt s.pin s.draws (i + 1))
    (byteAt s.pin s.draws (i + 2)) (byteAt s.pin s.draws (i + 3))

/-- POUT[i] as the host reads it: unspecified from `OUT_LEN.COUNT` up (R37, R66). -/
def State.poutByte (s : State) (i : Nat) : Byte :=
  if i < s.outCount.toNat then byteAt s.pout s.draws i else Config.freeByte s.draws i

/-- The word of POUT from byte `i` (R66). -/
def State.poutWord (s : State) (i : Nat) : Word :=
  wordOfLanes (s.poutByte i) (s.poutByte (i + 1)) (s.poutByte (i + 2)) (s.poutByte (i + 3))

/-- Word `part` of a frame: the ID, the DLC byte, data bytes 0 to 3, data bytes 4 to 7 (R67). -/
def frameWord (f : Frame) (part : Nat) : Word :=
  match part with
  | 0 => f.id.setWidth 32
  | 1 => f.dlc.setWidth 32
  | 2 => wordOfLanes f.data[0] f.data[1] f.data[2] f.data[3]
  | _ => wordOfLanes f.data[4] f.data[5] f.data[6] f.data[7]

/-- Word `part` of slot `k` as the host reads it: unspecified where the slot is not valid (R34, R67). -/
def State.slotWord (s : State) (k part : Nat) : Word :=
  match (if s.fbValid then s.fb.frames[k]? else none) with
  | some f => frameWord f part
  | none => Config.freeSlotWord s.draws

/-- The word a place reads as (R63 to R67); CMD and reserved offsets read 0 (R64). -/
def State.readPlace (s : State) : Place → Word
  | .cmd => 0#32
  | .status => statusWord s.status
  | .arbId => arbIdWord s.arbId
  | .payloadLen => s.payloadLen
  | .fbInfo => fbInfoWord s.fbValid s.fbLen
  | .hdrMode => flagWord s.hdrExt
  | .result => flagWord s.resultRtr
  | .outLen => outLenWord s.outCount
  | .transportCode => s.transportCode
  | .pin i => s.pinWord i
  | .pout i => s.poutWord i
  | .slot k part => s.slotWord k part
  | .reserved => 0#32

/-- A CMD write of word `w` (R21, R99): the command it names runs, or it ends with the decoder's precondition fault
and nothing else (R100, R101, R204). -/
def issueCommand (w : Word) (s : State) : Result :=
  match decode w with
  | .instr i => exec i s
  | .rejected c => .next (s.endWith (.precondFault c))

/-- What a write does at a place: CMD issues a command; ARB_ID keeps bits [28:0] (R25); PAYLOAD_LEN and PIN store
the data (R65, R72); a write anywhere else is ignored (R64). -/
def writePlace (p : Place) (w : Word) (s : State) : Result :=
  match p with
  | .cmd => issueCommand w s
  | .arbId => .next { s with arbId := w.setWidth Config.idWidth }
  | .payloadLen => .next { s with payloadLen := w }
  | .pin i => .next { s with pin := memWrite s.pin i (lanes w) }
  | .status => .next s
  | .fbInfo => .next s
  | .hdrMode => .next s
  | .result => .next s
  | .outLen => .next s
  | .transportCode => .next s
  | .pout _ => .next s
  | .slot _ _ => .next s
  | .reserved => .next s

/-- Why a word access at an offset is not admitted, where it is not (R60, R62). -/
def accessFault (off : Nat) : Option Fault :=
  if 0xFFF < off then some (.outsideWindow off)
  else if off % 4 ≠ 0 then some (.accessNotAdmitted off)
  else none

/-- A host write of a word at an offset. -/
def hostWrite (off : Nat) (w : Word) (s : State) : Result :=
  match accessFault off with
  | some f => .fault f
  | none => writePlace (placeOf off) w s

end Sys2Proof.Machine
end

