-- ==== Sys2Proof/Machine/HostProgram.lean ====
section
/-! DEFINITION. The host: its temporaries, its lines (30_encoding.md R103) and the pseudo-instructions (R104). -/

namespace Sys2Proof.Machine

/-! Temporaries: a sorted list, at most one entry a name. -/

/-- The value of a temporary, where it has been written. -/
def readTemp (m : List (Temp × Word)) (t : Temp) : Option Word :=
  match m with
  | [] => none
  | c :: rest => if c.1 = t then some c.2 else readTemp rest t

/-- The temporaries with `t` set to `w`. -/
def writeTemp (m : List (Temp × Word)) (t : Temp) (w : Word) : List (Temp × Word) :=
  match m with
  | [] => [(t, w)]
  | c :: rest =>
    if c.1 < t then c :: writeTemp rest t w
    else if c.1 = t then (t, w) :: rest
    else (t, w) :: c :: rest

/-- The host at its next line. -/
def State.advance (s : State) : State := { s with host := { s.host with pos := s.host.pos + 1 } }

/-- The host at line `n`. -/
def State.goTo (s : State) (n : Nat) : State := { s with host := { s.host with pos := n } }

/-- The host with temporary `t` set. -/
def State.setTemp (s : State) (t : Temp) (w : Word) : State :=
  { s with host := { s.host with temps := writeTemp s.host.temps t w } }

/-- The place of a label in a program, counted from `n`: the first line that defines it. -/
def findLabel (l : Label) (n : Nat) : List HostLine → Option Nat
  | [] => none
  | line :: rest => if line = .label l then some n else findLabel l (n + 1) rest

/-- Go on with the value of a temporary; one that has not been written faults the program (R103). -/
def withTemp (t : Temp) (s : State) (go : Word → Result) : Result :=
  match readTemp s.host.temps t with
  | some w => go w
  | none => .fault (.tempUnwritten t)

/-- Go on with the value of an operand. -/
def withOperand (v : Operand) (s : State) (go : Word → Result) : Result :=
  match v with
  | .const w => go w
  | .temp t => withTemp t s go

/-- Continue at a label. -/
def branch (l : Label) (s : State) : Result :=
  match findLabel l 0 s.host.program with
  | some n => .next (s.goTo n)
  | none => .fault (.labelUndefined l)

/-- A host read of the word at an offset into a temporary: no state of the block changes (R72). -/
def hostRead (off : Nat) (t : Temp) (s : State) : Result :=
  match accessFault off with
  | some f => .fault f
  | none => .next (s.drawn.setTemp t (s.readPlace (placeOf off)))

/-- One line of the host's program (R103), at the state in which the host has moved past it. HALT stays where it
is, since the program has ended. -/
def runLine (line : HostLine) (s : State) : Result :=
  match line with
  | .wr off v => withOperand v s fun w => hostWrite off w s.advance
  | .rd off t => hostRead off t s.advance
  | .mov t v => withOperand v s fun w => .next (s.advance.setTemp t w)
  | .add t u v => withTemp u s fun a => withOperand v s fun b => .next (s.advance.setTemp t (a + b))
  | .and t u v => withTemp u s fun a => withOperand v s fun b => .next (s.advance.setTemp t (a &&& b))
  | .beq t v l => withTemp t s fun a => withOperand v s fun b => if a = b then branch l s else .next s.advance
  | .bne t v l => withTemp t s fun a => withOperand v s fun b => if a = b then .next s.advance else branch l s
  | .label _ => .next s.advance
  | .halt => .next s
  | .oddAccess _ off => .fault (.accessNotAdmitted off)
  | .platformReset => .next s.resetBlock.advance

/-- The host's next step: its next line; past the last line the block is idle and waits (R241; log 4). -/
def hostStep (s : State) : Result :=
  match s.host.program[s.host.pos]? with
  | some line => runLine line s
  | none => .next s

/-! The assembler notation. -/

/-- The host line a mnemonic stands for: `WR 0x000, <word>` (R102). -/
def commandLine (i : Instr) : HostLine := .wr 0x000 (.const (encode i))

/-- The word writes of LOAD_PAYLOAD from byte `i` on, four bytes a word, the last word padded with 0 (R104). -/
def payloadWrites (i : Nat) : List Byte → List HostLine
  | [] => []
  | [a] => [.wr (0x100 + i) (.const (wordOfLanes a 0 0 0))]
  | [a, b] => [.wr (0x100 + i) (.const (wordOfLanes a b 0 0))]
  | [a, b, c] => [.wr (0x100 + i) (.const (wordOfLanes a b c 0))]
  | a :: b :: c :: d :: rest => .wr (0x100 + i) (.const (wordOfLanes a b c d)) :: payloadWrites (i + 4) rest

/-- `LOAD_PAYLOAD b[0..n-1]` (R104): the first 200 bytes into PIN, then the length. DESIGN CHOICE (log 21): a length of
2^32 or more has no 32-bit WR (D9 says it cannot be presented), and is written modulo 2^32. -/
def loadPayload (bytes : List Byte) : List HostLine :=
  payloadWrites 0 (bytes.take Config.maxPayload) ++ [.wr 0x00C (.const (BitVec.ofNat 32 bytes.length))]

/-- `WRITE_DATA_FRAME id` (R104); WRITE_DATA_FRAME_OWN_ID is this with the caller's own ID. -/
def writeDataFrame (id : Operand) : List HostLine := [.wr 0x008 id, commandLine (.encode false)]

/-- `TRANSMIT` (R104), with the temporary it uses and its fresh label (C13). -/
def transmit (t : Temp) (skip : Label) : List HostLine :=
  [.rd 0x004 t, .bne t (.const 0) skip, commandLine .send, .label skip]

/-- `CHECK_RTR k` (R104), with the temporaries it reads STATUS and RESULT into. -/
def checkRtr (k : Nat) (st rt : Temp) : List HostLine := [commandLine (.decodeRtr k), .rd 0x004 st, .rd 0x018 rt]

end Sys2Proof.Machine
end

