-- ==== Sys2Proof/Machine/Step.lean ====
section
/-! DEFINITION. One step of the machine: the host's next line (R20, R73, R103), a whole command in it where the line
writes CMD (R71). -/

namespace Sys2Proof.Machine

/-- One step. -/
def step (s : State) : Host.Outcome State Fault Refusal := hostStep s

/-- The state whose next step issues the command word `w` of an `nbits`-bit table row: the host's program is the one
line that writes it to CMD. The block runs no program and takes a command word from the data of a CMD write (R75), so
this is where a step fetches its next instruction (log 4). -/
def State.withFetchWord (s : State) (nbits w : Nat) : State :=
  { s with host := { s.host with program := [.wr 0x000 (.const (BitVec.ofNat 32 (w % 2 ^ nbits)))], pos := 0 } }

end Sys2Proof.Machine
end

