-- ==== Sys2Proof/Safety.lean ====
section
/-! DEFINITION. What the rules promise of every state a run reaches, and what a safe run is. -/

namespace Sys2Proof.Machine

/-- Each entry's name is above `a`, and the names rise strictly. -/
def tempsRiseAbove (a : Nat) : List (Temp × Word) → Bool
  | [] => true
  | c :: rest => decide (a < c.1) && tempsRiseAbove c.1 rest

/-- The canonical form of the host temporaries. -/
def tempsWf : List (Temp × Word) → Bool
  | [] => true
  | c :: rest => tempsRiseAbove c.1 rest

/-- Every cell of a payload memory has an index below `MAX_PAYLOAD` (R36, R37). -/
def memoryWithin (m : Memory) : Bool := m.all fun c => decide (c.1 < Config.maxPayload)

/-- `CAUSE` is 1 to 6 when `CODE = 2` and 0 otherwise (R24). -/
def statusLegal (st : StatusReg) : Bool :=
  if st.code = 2#2 then decide (1 ≤ st.cause.toNat ∧ st.cause.toNat ≤ 6) else decide (st.cause = 0#4)

/-- The invariant of the block. -/
structure State.Inv (s : State) : Prop where
  /-- `STATUS` holds an outcome (R23, R24). -/
  status_legal : statusLegal s.status = true
  /-- `TRANSPORT_CODE` is 0 unless the last command ended in a transport error (R31). -/
  transport_code_zero : s.status.code ≠ 3#2 → s.transportCode = 0#32
  /-- `VALID = 0` implies `LEN = 0` (R27). -/
  invalid_empty : s.fbValid = false → s.fb.frames = []
  /-- `RESULT.RTR` is 1 only while the buffer holds a frame whose RTR bit is set (R29, R42). -/
  result_backed : s.resultRtr = true → ∃ f ∈ s.fb.frames, dlcIsRtr f.dlc = true
  /-- `OUT_LEN.COUNT` is at most 200 (R30). -/
  out_bound : s.outCount.toNat ≤ Config.maxPayload
  /-- While `OUT_LEN` is not 0, it and POUT hold the message of the current buffer (R30, R37, R42). -/
  out_backed : s.outCount ≠ 0#8 →
    allWellFormed s.fb.frames = true ∧ s.outCount.toNat = (batchBytes s.fb.frames).length ∧
      ∀ i, i < s.outCount.toNat → readCell s.pout i = (batchBytes s.fb.frames)[i]?
  /-- PIN is in canonical form, below 200 (R36). -/
  pin_wf : Memory.wf s.pin = true ∧ memoryWithin s.pin = true
  /-- POUT is in canonical form, below 200 (R37). -/
  pout_wf : Memory.wf s.pout = true ∧ memoryWithin s.pout = true
  /-- The host temporaries are in canonical form. -/
  temps_wf : tempsWf s.host.temps = true

/-- The outcome is a precondition fault. -/
def CmdOutcome.isPrecondFault : CmdOutcome → Bool
  | .precondFault _ => true
  | _ => false

/-- No command so far has ended in a precondition fault: the premise R211 has in mind. -/
def State.noFaultRecorded (s : State) : Bool := s.record.all fun o => !o.isPrecondFault

/-- The states a run from `s` reaches. -/
inductive Reaches (s : State) : State → Prop where
  | refl : Reaches s s
  | step {t u : State} : Reaches s t → Machine.step t = .next u → Reaches s u

/-- A safe run from `s`: no step of it stops, and no command of it ends in a precondition fault. -/
def State.SafeRun (s : State) : Prop :=
  ∀ t, Reaches s t → t.noFaultRecorded = true ∧ ∃ u, Machine.step t = .next u

/-- A command ended with outcome `o`: the host reads `status` and `code` in STATUS and TRANSPORT_CODE, and the
model's record has gained just that outcome (R17, R201, R211). -/
def EndedWith (o : CmdOutcome) (status code : Word) (s t : State) : Prop :=
  t.readPlace .status = status ∧ t.readPlace .transportCode = code ∧ t.record = o :: s.record

/-- Nothing but STATUS, TRANSPORT_CODE and the model's record differs. -/
def OnlyOutcomeWritten (s t : State) : Prop :=
  t = { s with status := t.status, transportCode := t.transportCode, record := t.record }

/-- Every byte of PIN reads as before. -/
def SamePin (s t : State) : Prop := ∀ a, readCell t.pin a = readCell s.pin a

/-- Every byte of POUT reads as before. -/
def SamePout (s t : State) : Prop := ∀ a, readCell t.pout a = readCell s.pout a

/-- The operand registers, the payload-in memory and the host are as before: what no command writes (R25, R26,
R36, R43). -/
def SameOperands (s t : State) : Prop :=
  t.arbId = s.arbId ∧ t.payloadLen = s.payloadLen ∧ SamePin s t ∧ t.host = s.host

/-- The operand `v` of a host line has the value `w` (R103). -/
def OperandIs (s : State) (v : Operand) (w : Word) : Prop :=
  v = .const w ∨ ∃ x, v = .temp x ∧ readTemp s.host.temps x = some w

/-- The host's next line is `line`. -/
def NextLine (s : State) (line : HostLine) : Prop := s.host.program[s.host.pos]? = some line

/-- The host has moved to its next line with temporary `x` set; every other temporary, and everything else, is as
before (R103). -/
def LineSetsOnly (x : Temp) (s t : State) : Prop :=
  (∀ y, y ≠ x → readTemp t.host.temps y = readTemp s.host.temps y) ∧
  t = { s with host := { s.host with pos := s.host.pos + 1, temps := t.host.temps } }

/-- The numbers of R206's table of causes. -/
def causeNumber : Cause → Word
  | .reservedOp => 1#32
  | .reservedField => 2#32
  | .illegalId => 3#32
  | .indexRange => 4#32
  | .noValidBuffer => 5#32
  | .malformedDlc => 6#32

/-- STATUS and TRANSPORT_CODE read as the row of R201's table for this outcome. -/
def ReadsAsOutcome (t : State) : CmdOutcome → Prop
  | .ok => t.readPlace .status = 0#32 ∧ t.readPlace .transportCode = 0#32
  | .aborted => t.readPlace .status = 1#32 ∧ t.readPlace .transportCode = 0#32
  | .precondFault c => t.readPlace .status = 2#32 + (causeNumber c <<< 8) ∧ t.readPlace .transportCode = 0#32
  | .transportError code => t.readPlace .status = 3#32 ∧ t.readPlace .transportCode = code

/-- `o` is the outcome R207 gives the command from state `s`: the first condition that holds wins. -/
def OutcomeByPriority (s : State) (o : CmdOutcome) : Instr → Prop
  | .encode r =>
    o = if s.hdrExt = false ∧ 2 ^ 11 ≤ s.arbId.toNat then .precondFault .illegalId
      else if r = true then .ok
      else if 200 < s.payloadLen.toNat then .aborted else .ok
  | .decodeRtr k =>
    o = if s.fbValid = false then .precondFault .noValidBuffer
      else if s.fb.frames.length ≤ k then .precondFault .indexRange else .ok
  | .extractPayload =>
    (s.fbValid = false ∧ o = .precondFault .noValidBuffer) ∨
    (s.fbValid = true ∧ (∃ f ∈ s.fb.frames, 8 < f.dlc.toNat % 16) ∧ o = .precondFault .malformedDlc) ∨
    (s.fbValid = true ∧ (∀ f ∈ s.fb.frames, f.dlc.toNat % 16 ≤ 8) ∧ o = .ok)
  | .send =>
    (s.fbValid = false ∧ o = .precondFault .noValidBuffer) ∨
    (s.fbValid = true ∧ s.sendAnswer = .ok ∧ o = .ok) ∨
    (s.fbValid = true ∧ ∃ code, s.sendAnswer = .err code ∧ o = .transportError code)
  | .setExtHeader =>
    (s.headerAnswer = .ok ∧ o = .ok) ∨ ∃ code, s.headerAnswer = .err code ∧ o = .transportError code
  | .receive =>
    ((∃ b, s.rxAnswer = .ok b) ∧ o = .ok) ∨ ∃ code, s.rxAnswer = .err code ∧ o = .transportError code

end Sys2Proof.Machine
end

