-- ==== Sys2Proof/Certificates/Slice0/Obligations.lean ====
section
/-! DEFINITION. The statements about the model, from the numbered rules of spec/. -/

open Sys2Proof Sys2Proof.Machine

/-! ## Encodings -/

/-- Decoding the word of any well-formed command gives the command back, operands at every value (R91, R92, R99). -/
def Obligations.DecodeOfEncodeIsTheCommand : Prop :=
  ∀ i : Instr, WellFormed i → decode (encode i) = .instr i

/-- A word the decoder accepts is the word of the command it names, and that command is well formed: no accepted word
has a second spelling (R92, R100). -/
def Obligations.AcceptedWordIsTheEncoding : Prop :=
  ∀ (w : Word) (i : Instr), decode w = .instr i → WellFormed i ∧ encode i = w

/-- R101: the words turned away with RESERVED_OP are exactly those whose OP is 0 or 7 to 15, whatever the other bits.
R100: among the others, those turned away with RESERVED_FIELD are exactly those with a reserved bit set, R set outside
ENCODE, or IDX nonzero outside DECODE_RTR. R99: no other word is turned away. -/
def Obligations.RejectedWordsAreTheReservedOnes : Prop :=
  ∀ w : Word,
    (decode w = .rejected .reservedOp ↔ w.toNat % 16 = 0 ∨ 7 ≤ w.toNat % 16) ∧
    (decode w = .rejected .reservedField ↔
      (1 ≤ w.toNat % 16 ∧ w.toNat % 16 ≤ 6) ∧
      ((w &&& 0xFFE0FEF0#32) ≠ 0#32 ∨
        (w.toNat % 16 ≠ 1 ∧ w.getLsbD 8 = true) ∨
        (w.toNat % 16 ≠ 2 ∧ (w &&& 0x001F0000#32) ≠ 0#32))) ∧
    (∀ c, decode w = .rejected c → c = .reservedOp ∨ c = .reservedField)

/-- The decoder names a command exactly on the words of a row of spec/opcode_table.json, and no word hits two rows. -/
def Obligations.DecoderAgreesWithOpcodeTable : Prop :=
  (∀ (w : Word) (i : Instr), decode w = .instr i → (opRow i).hits w = true) ∧
  (∀ (w : Word) (i : Instr), (opRow i).hits w = true → ∃ j, decode w = .instr j ∧ opRow j = opRow i) ∧
  (∀ (w : Word) (i j : Instr), (opRow i).hits w = true → (opRow j).hits w = true → opRow i = opRow j)

/-- Every word R92 and R102 write out decodes to its command: the two words of ENCODE, the word 0x00000002 + (k << 16)
of DECODE_RTR for every k from 0 to 31, so that IDX is w[20:16] read as a number (R93), and the words of the other
four. -/
def Obligations.WordsOfTheSixCommands : Prop :=
  decode 0x00000001#32 = .instr (.encode false) ∧ decode 0x00000101#32 = .instr (.encode true) ∧
  (∀ k, k < 32 → decode (BitVec.ofNat 32 (2 + k * 2 ^ 16)) = .instr (.decodeRtr k)) ∧
  decode 0x00000003#32 = .instr .extractPayload ∧ decode 0x00000004#32 = .instr .setExtHeader ∧
  decode 0x00000005#32 = .instr .send ∧ decode 0x00000006#32 = .instr .receive

/-! ## Reset -/

/-- R240: the reset values of the registers as the host reads them, and the memories unspecified: no slot valid, no
byte of PIN or POUT written. -/
def Obligations.ResetValuesOfTheRegisters : Prop :=
  State.reset.readPlace .status = 0#32 ∧ State.reset.readPlace .arbId = 0#32 ∧
  State.reset.readPlace .payloadLen = 0#32 ∧ State.reset.readPlace .fbInfo = 0#32 ∧
  State.reset.readPlace .hdrMode = 0#32 ∧ State.reset.readPlace .result = 0#32 ∧
  State.reset.readPlace .outLen = 0#32 ∧ State.reset.readPlace .transportCode = 0#32 ∧
  State.reset.fb.frames = [] ∧ ∀ a, readCell State.reset.pin a = none ∧ readCell State.reset.pout a = none

/-- R240: asserting reset at any later time gives the block its reset state again and makes no transport call. That
the host goes on at its next line, and that the model's draws, record and pending answers stay, is the model's choice
(log 6). -/
def Obligations.PlatformResetRestoresTheBlock : Prop :=
  ∀ s, NextLine s .platformReset →
    step s = .next { State.reset with
      transport := s.transport, draws := s.draws, record := s.record,
      host := { s.host with pos := s.host.pos + 1 } }

/-- The invariant holds right after reset. -/
def Obligations.ResetStateMeetsInv : Prop := State.reset.Inv

/-- The invariant of the block (Safety.lean) is kept by every step, whatever line the host runs and whatever the
transport answers. The canonical forms of the memories and of the host's temporaries, which are clauses of it, are the
model's own (log 7, log 4). -/
def Obligations.EveryStepKeepsInv : Prop :=
  ∀ s t, s.Inv → step s = .next t → t.Inv

/-! ## The host port -/

/-- When the host writes to CMD a word that decodes to a command, the step is that command's meaning at the state in
which the host has moved past its line (R20, R21, R75). -/
def Obligations.StepRunsTheDecodedCommand : Prop :=
  ∀ s v w i, NextLine s (.wr 0x000 v) → OperandIs s v w → decode w = .instr i →
    step s = exec i { s with host := { s.host with pos := s.host.pos + 1 } }

/-- R101: a CMD write of a word whose OP is 0 or 7 to 15, whatever its other bits, ends in PRECOND_FAULT(RESERVED_OP),
STATUS 0x102; the all-zero word is one. R100: a word with OP 1 to 6 that has a reserved bit set, R set outside ENCODE, or
IDX nonzero outside DECODE_RTR ends in PRECOND_FAULT(RESERVED_FIELD), STATUS 0x202. Neither changes anything but STATUS
and TRANSPORT_CODE (the host is at its next line, and the model's record has the outcome). -/
def Obligations.ReservedWordEndsInPrecondFault : Prop :=
  ∀ s v w, NextLine s (.wr 0x000 v) → OperandIs s v w →
    (w.toNat % 16 = 0 ∨ 7 ≤ w.toNat % 16 →
      ∃ t, step s = .next t ∧ EndedWith (.precondFault .reservedOp) 0x102#32 0#32 s t ∧
        OnlyOutcomeWritten { s with host := { s.host with pos := s.host.pos + 1 } } t) ∧
    ((1 ≤ w.toNat % 16 ∧ w.toNat % 16 ≤ 6) →
      ((w &&& 0xFFE0FEF0#32) ≠ 0#32 ∨ (w.toNat % 16 ≠ 1 ∧ w.getLsbD 8 = true) ∨
        (w.toNat % 16 ≠ 2 ∧ (w &&& 0x001F0000#32) ≠ 0#32)) →
      ∃ t, step s = .next t ∧ EndedWith (.precondFault .reservedField) 0x202#32 0#32 s t ∧
        OnlyOutcomeWritten { s with host := { s.host with pos := s.host.pos + 1 } } t)

/-- R25: a write of ARB_ID stores bits [28:0] and ignores bits [31:29], which read 0; R26: a write of PAYLOAD_LEN
stores all 32 bits. Nothing else changes but the host's place. -/
def Obligations.OperandRegisterWrites : Prop :=
  ∀ s v w, OperandIs s v w →
    (NextLine s (.wr 0x008 v) → ∃ t, step s = .next t ∧
      t.readPlace .arbId = w &&& 0x1FFFFFFF#32 ∧
      t = { s with arbId := t.arbId, host := { s.host with pos := s.host.pos + 1 } }) ∧
    (NextLine s (.wr 0x00C v) → ∃ t, step s = .next t ∧
      t.readPlace .payloadLen = w ∧
      t = { s with payloadLen := t.payloadLen, host := { s.host with pos := s.host.pos + 1 } })

/-- R65: a write of word `w` at payload-in offset 0x100 + 4j sets PIN[4j + b] to bits [8b+7:8b] of it; every other byte
of PIN, and everything else but the host's place, is unchanged. -/
def Obligations.PayloadInWindowWrite : Prop :=
  ∀ s v w j, j < 50 → OperandIs s v w → NextLine s (.wr (0x100 + 4 * j) v) →
    ∃ t, step s = .next t ∧
      (∀ b, b < 4 → readCell t.pin (4 * j + b) = some (BitVec.ofNat 8 (w.toNat / 2 ^ (8 * b)))) ∧
      (∀ a, (a < 4 * j ∨ 4 * j + 4 ≤ a) → readCell t.pin a = readCell s.pin a) ∧
      t = { s with pin := t.pin, host := { s.host with pos := s.host.pos + 1 } }

/-- R64: a read of CMD or of a reserved offset returns 0; a write to a reserved offset, a read-only register or a read-only
window is ignored; none of these accesses has any other effect. Of the host, a read sets its temporary, leaves every
other temporary and the program as they are, and goes to the next line; a write goes to the next line and changes
nothing else. I14 would have a reserved read treated as any value; that the model follows R64 and reads 0 there is
log 10. That the host is in the state and moves a line a step is log 4, and a read's step of the draw counter log 1. -/
def Obligations.ReservedAndReadOnlyAccesses : Prop :=
  ∀ s off, admitted off = true →
    (∀ x, NextLine s (.rd off x) →
      (off = 0x000 ∨ (0x024 ≤ off ∧ off ≤ 0x0FF) ∨ (0x1C8 ≤ off ∧ off ≤ 0x1FF) ∨
        (0x2C8 ≤ off ∧ off ≤ 0x3FF) ∨ 0x590 ≤ off) →
      ∃ t, step s = .next t ∧ readTemp t.host.temps x = some 0#32 ∧
        (∀ y, y ≠ x → readTemp t.host.temps y = readTemp s.host.temps y) ∧
        t.host.pos = s.host.pos + 1 ∧ t.host.program = s.host.program ∧
        t = { s with host := t.host, draws := t.draws }) ∧
    (∀ v w, OperandIs s v w → NextLine s (.wr off v) →
      off ≠ 0x000 → off ≠ 0x008 → off ≠ 0x00C → (off < 0x100 ∨ 0x1C8 ≤ off) →
      step s = .next { s with host := { s.host with pos := s.host.pos + 1 } })

/-- R72: a read at any admitted offset changes no state of the block or of the transport; the host gets a word in its
temporary and moves on. -/
def Obligations.ReadsHaveNoSideEffect : Prop :=
  ∀ s off x, NextLine s (.rd off x) → admitted off = true →
    ∃ t w, step s = .next t ∧ readTemp t.host.temps x = some w ∧
      (∀ y, y ≠ x → readTemp t.host.temps y = readTemp s.host.temps y) ∧
      t.host.pos = s.host.pos + 1 ∧ t.host.program = s.host.program ∧
      t = { s with host := t.host, draws := t.draws }

/-- R22, R25 to R31: each register offset reads the register's fields at their places, every other bit 0. -/
def Obligations.RegisterReadsReturnTheirFields : Prop :=
  ∀ s x off w, NextLine s (.rd off x) →
    ((off = 0x004 ∧ w.toNat = s.status.code.toNat + 2 ^ 8 * s.status.cause.toNat) ∨
     (off = 0x008 ∧ w.toNat = s.arbId.toNat) ∨
     (off = 0x00C ∧ w = s.payloadLen) ∨
     (off = 0x010 ∧ w.toNat = s.fb.frames.length + 2 ^ 8 * s.fbValid.toNat) ∨
     (off = 0x014 ∧ w.toNat = s.hdrExt.toNat) ∨
     (off = 0x018 ∧ w.toNat = s.resultRtr.toNat) ∨
     (off = 0x01C ∧ w.toNat = s.outCount.toNat) ∨
     (off = 0x020 ∧ w = s.transportCode)) →
    ∃ t, step s = .next t ∧ readTemp t.host.temps x = some w

/-- R65, R66: in a word read at 0x100 + 4j or 0x200 + 4j, byte `b` is PIN[4j + b] where that byte has been written, and
POUT[4j + b] where that index is below OUT_LEN and the byte has been written. Bytes that are unspecified are draws, of
which nothing is said. -/
def Obligations.PayloadWindowsReadTheirBytes : Prop :=
  ∀ s x j b v, j < 50 → b < 4 →
    (NextLine s (.rd (0x100 + 4 * j) x) → readCell s.pin (4 * j + b) = some v →
      ∃ t w, step s = .next t ∧ readTemp t.host.temps x = some w ∧ w.extractLsb' (8 * b) 8 = v) ∧
    (NextLine s (.rd (0x200 + 4 * j) x) → 4 * j + b < s.outCount.toNat → readCell s.pout (4 * j + b) = some v →
      ∃ t w, step s = .next t ∧ readTemp t.host.temps x = some w ∧ w.extractLsb' (8 * b) 8 = v)

/-- R67: the four words of a valid slot `k`: the ID, the DLC byte, data bytes 3..0 and data bytes 7..4. -/
def Obligations.FrameWindowReadsTheSlot : Prop :=
  ∀ s x k f, s.fbValid = true → s.fb.frames[k]? = some f →
    (NextLine s (.rd (0x400 + 16 * k) x) →
      ∃ t w, step s = .next t ∧ readTemp t.host.temps x = some w ∧ w.toNat = f.id.toNat) ∧
    (NextLine s (.rd (0x400 + 16 * k + 4) x) →
      ∃ t w, step s = .next t ∧ readTemp t.host.temps x = some w ∧ w.toNat = f.dlc.toNat) ∧
    (NextLine s (.rd (0x400 + 16 * k + 8) x) →
      ∃ t, step s = .next t ∧
        readTemp t.host.temps x = some (f.data[3] ++ f.data[2] ++ f.data[1] ++ f.data[0])) ∧
    (NextLine s (.rd (0x400 + 16 * k + 12) x) →
      ∃ t, step s = .next t ∧
        readTemp t.host.temps x = some (f.data[7] ++ f.data[6] ++ f.data[5] ++ f.data[4]))

/-- R62: an access that is not a 32-bit one at a multiple of 4 has no step: the machine stops, for a read, for a write
whatever the word, and for every other shape. That the stop is a fault of this name is the model's (log 3). -/
def Obligations.NonAdmittedAccessStops : Prop :=
  ∀ s off, off ≤ 0xFFF →
    (off % 4 ≠ 0 → ∀ x, NextLine s (.rd off x) → step s = .fault (.accessNotAdmitted off)) ∧
    (off % 4 ≠ 0 → ∀ v w, OperandIs s v w → NextLine s (.wr off v) → step s = .fault (.accessNotAdmitted off)) ∧
    (∀ shape, NextLine s (.oddAccess shape off) → step s = .fault (.accessNotAdmitted off))

/-! ## The host's own lines -/

/-- R103: MOV, ADD (modulo 2^32) and AND set their temporary and nothing else but the host's place; a label does
nothing. R103 says that HALT ends the program and no more: that a step at HALT answers the same state is the model's
choice (log 4). -/
def Obligations.HostDataLines : Prop :=
  ∀ s x y v a b, OperandIs s v b →
    (NextLine s (.mov x v) → ∃ t, step s = .next t ∧ readTemp t.host.temps x = some b ∧ LineSetsOnly x s t) ∧
    (readTemp s.host.temps y = some a →
      (NextLine s (.add x y v) → ∃ t c, step s = .next t ∧ readTemp t.host.temps x = some c ∧
        c.toNat = (a.toNat + b.toNat) % 2 ^ 32 ∧ LineSetsOnly x s t) ∧
      (NextLine s (.and x y v) → ∃ t, step s = .next t ∧ readTemp t.host.temps x = some (a &&& b) ∧
        LineSetsOnly x s t)) ∧
    (∀ l, NextLine s (.label l) → step s = .next { s with host := { s.host with pos := s.host.pos + 1 } }) ∧
    (NextLine s .halt → step s = .next s)

/-- R103: BEQ and BNE continue at their label, the line `n` that alone defines it, when the temporary equals, or
differs from, the value, and at the next line otherwise; nothing else changes. -/
def Obligations.HostBranchLines : Prop :=
  ∀ s x v l a b n, readTemp s.host.temps x = some a → OperandIs s v b →
    s.host.program[n]? = some (.label l) → (∀ m, s.host.program[m]? = some (.label l) → m = n) →
    (NextLine s (.beq x v l) →
      step s = .next { s with host := { s.host with pos := if a = b then n else s.host.pos + 1 } }) ∧
    (NextLine s (.bne x v l) →
      step s = .next { s with host := { s.host with pos := if a = b then s.host.pos + 1 else n } })

/-- R103: a temporary read before it is written has no value, and the program faults there. R103 gives a line no order
of reading, so two things here are the model's, DEDUCED (log 4): a WR reads its temporary before its offset is looked
at, so the unwritten temporary is the fault even where the access is not admitted; and a line reads its first operand
before its second, so the first one's fault is reported where both are unwritten. -/
def Obligations.UnwrittenTemporaryFaults : Prop :=
  ∀ s x, readTemp s.host.temps x = none →
    (∀ off, NextLine s (.wr off (.temp x)) → step s = .fault (.tempUnwritten x)) ∧
    (∀ y, NextLine s (.mov y (.temp x)) → step s = .fault (.tempUnwritten x)) ∧
    (∀ y v, NextLine s (.add y x v) ∨ NextLine s (.and y x v) → step s = .fault (.tempUnwritten x)) ∧
    (∀ y z a, readTemp s.host.temps z = some a →
      NextLine s (.add y z (.temp x)) ∨ NextLine s (.and y z (.temp x)) → step s = .fault (.tempUnwritten x)) ∧
    (∀ v l, NextLine s (.beq x v l) ∨ NextLine s (.bne x v l) → step s = .fault (.tempUnwritten x)) ∧
    (∀ z a l, readTemp s.host.temps z = some a →
      NextLine s (.beq z (.temp x) l) ∨ NextLine s (.bne z (.temp x) l) → step s = .fault (.tempUnwritten x))

/-! ## ENCODE -/

/-- R132: in standard mode an ID of 2^11 or more ends ENCODE in PRECOND_FAULT(ILLEGAL_ID), on both paths, with no other
change; in extended mode no ID does. -/
def Obligations.EncodeChecksItsIdFirst : Prop :=
  (∀ s r, s.hdrExt = false → 2 ^ 11 ≤ s.arbId.toNat →
    ∃ t, exec (.encode r) s = .next t ∧ EndedWith (.precondFault .illegalId) 0x302#32 0#32 s t ∧
      OnlyOutcomeWritten s t) ∧
  (∀ s r, s.hdrExt = true →
    ∃ t, exec (.encode r) s = .next t ∧ t.readPlace .status ≠ 0x302#32)

/-- R133: the RTR path builds exactly one frame, the ID as given, DLC byte 0x10, all 8 data bytes 0, and ends OK with
LEN 1 and VALID 1; neither PAYLOAD_LEN nor PIN has a part in it. -/
def Obligations.EncodeRtrBuildsOneFrame : Prop :=
  ∀ s, idLegal s.hdrExt s.arbId = true →
    ∃ t, exec (.encode true) s = .next t ∧ EndedWith .ok 0#32 0#32 s t ∧
      (∃ f, t.fb.frames = [f] ∧ f.id = s.arbId ∧ f.dlc = 0x10#8 ∧ f.data.toList = List.replicate 8 0#8) ∧
      t.readPlace .fbInfo = 0x101#32 ∧
      ∀ n p, ∃ u, exec (.encode true) { s with payloadLen := n, pin := p } = .next u ∧ u.fb = t.fb ∧
        EndedWith .ok 0#32 0#32 s u

/-- R134, R136 to R139: for a payload of at most 200 bytes the data path ends OK with ceil(n/8) frames, in order, each
with the ID, its chunk length in the DLC byte and the RTR bit 0, its chunk of PIN, and zeros after it; VALID is 1, and
RESULT and OUT_LEN are cleared (ReplaceFB). A
byte of PIN that has not been written is a draw, of which nothing is said (R36). -/
def Obligations.EncodeDataBuildsTheFrames : Prop :=
  ∀ s, idLegal s.hdrExt s.arbId = true → s.payloadLen.toNat ≤ 200 →
    ∃ t, exec (.encode false) s = .next t ∧ EndedWith .ok 0#32 0#32 s t ∧
      t.fb.frames.length = s.payloadLen.toNat / 8 + (if 0 < s.payloadLen.toNat % 8 then 1 else 0) ∧
      t.readPlace .fbInfo = BitVec.ofNat 32 (0x100 + t.fb.frames.length) ∧
      t.readPlace .result = 0#32 ∧ t.readPlace .outLen = 0#32 ∧
      ∀ x f, t.fb.frames[x]? = some f →
        ∃ c, c = (if x + 1 = t.fb.frames.length ∧ 0 < s.payloadLen.toNat % 8 then s.payloadLen.toNat % 8 else 8) ∧
          f.id = s.arbId ∧ f.dlc = BitVec.ofNat 8 c ∧
          (∀ j v, j < c → readCell s.pin (8 * x + j) = some v → f.data.toList[j]? = some v) ∧
          (∀ j, c ≤ j → j < 8 → f.data.toList[j]? = some 0#8)

/-- R135: a payload that needs more than 25 frames, one of more than 200 bytes, makes the data path end ABORTED with the
buffer invalidated: VALID, LEN, RESULT and OUT_LEN 0. It builds no frame, reads no payload byte, and changes nothing
else. -/
def Obligations.EncodeAbortsAboveCapacity : Prop :=
  ∀ s, idLegal s.hdrExt s.arbId = true →
    (25 < s.payloadLen.toNat / 8 + (if 0 < s.payloadLen.toNat % 8 then 1 else 0) ↔ 200 < s.payloadLen.toNat) ∧
    (200 < s.payloadLen.toNat →
      ∃ t, exec (.encode false) s = .next t ∧ EndedWith .aborted 1#32 0#32 s t ∧
        t.readPlace .fbInfo = 0#32 ∧ t.readPlace .result = 0#32 ∧ t.readPlace .outLen = 0#32 ∧ t.fb.frames = [] ∧
        OnlyOutcomeWritten
          { s with fb := t.fb, fbValid := t.fbValid, resultRtr := t.resultRtr, outCount := t.outCount } t ∧
        ∀ p, exec (.encode false) { s with pin := p } = .next { t with pin := p })

/-- R35, R95, R96: every frame of a batch that ENCODE leaves after ending OK has DLC byte 1 to 8 on the data path and
0x10 on the RTR path. -/
def Obligations.EncodeWritesOnlyTheseDlcBytes : Prop :=
  ∀ s t r, exec (.encode r) s = .next t → t.readPlace .status = 0#32 →
    ∀ f ∈ t.fb.frames, (r = true ∧ f.dlc = 0x10#8) ∨ (r = false ∧ 1 ≤ f.dlc.toNat ∧ f.dlc.toNat ≤ 8)

/-! ## DECODE_RTR -/

/-- R144: on a valid buffer and an index below LEN, DECODE_RTR ends OK and RESULT is bit 4 of that frame's DLC byte;
nothing else changes (R43, R145). -/
def Obligations.DecodeRtrGivesBitFour : Prop :=
  ∀ s k f, s.fbValid = true → s.fb.frames[k]? = some f →
    ∃ t, exec (.decodeRtr k) s = .next t ∧ EndedWith .ok 0#32 0#32 s t ∧
      (t.readPlace .result).toNat = f.dlc.toNat / 16 % 2 ∧
      OnlyOutcomeWritten { s with resultRtr := t.resultRtr } t

/-- R143: on a valid buffer, an index not below LEN ends PRECOND_FAULT(INDEX_RANGE) and changes nothing else; every
index 25 to 31 is such a one (R141). -/
def Obligations.DecodeRtrIndexOutOfRange : Prop :=
  ∀ s k, s.fbValid = true → (s.fb.frames.length ≤ k ∨ 25 ≤ k) →
    ∃ t, exec (.decodeRtr k) s = .next t ∧ EndedWith (.precondFault .indexRange) 0x402#32 0#32 s t ∧
      OnlyOutcomeWritten s t

/-- R142, R178: without a valid buffer DECODE_RTR, whatever the index, EXTRACT_PAYLOAD and SEND end
PRECOND_FAULT(NO_VALID_BUFFER), change nothing else and make no transport call. -/
def Obligations.NoValidBufferFaults : Prop :=
  ∀ s i, s.fbValid = false → (i = .extractPayload ∨ i = .send ∨ ∃ k, i = .decodeRtr k) →
    ∃ t, exec i s = .next t ∧ EndedWith (.precondFault .noValidBuffer) 0x502#32 0#32 s t ∧
      OnlyOutcomeWritten s t ∧ t.transport.calls = s.transport.calls

/-! ## EXTRACT_PAYLOAD -/

/-- R149: on a valid buffer with no length field above 8, EXTRACT_PAYLOAD ends OK; POUT from byte 0 on holds the first LEN
data bytes of each frame in buffer order, whatever their RTR bits and bits [7:5], and OUT_LEN is their number, at most
200. Nothing else but POUT changes. -/
def Obligations.ExtractConcatenatesTheBatch : Prop :=
  ∀ s, s.fbValid = true → (∀ f ∈ s.fb.frames, f.dlc.toNat % 16 ≤ 8) →
    ∃ t bytes, exec .extractPayload s = .next t ∧ EndedWith .ok 0#32 0#32 s t ∧
      bytes = (s.fb.frames.map fun f => f.data.toList.take (f.dlc.toNat % 16)).flatten ∧
      (t.readPlace .outLen).toNat = bytes.length ∧ bytes.length ≤ 200 ∧
      (∀ i, i < bytes.length → readCell t.pout i = bytes[i]?) ∧
      OnlyOutcomeWritten { s with pout := t.pout, outCount := t.outCount } t

/-- R148: a length field of 9 to 15 in any valid frame ends EXTRACT_PAYLOAD in PRECOND_FAULT(MALFORMED_DLC), with
nothing else written. -/
def Obligations.ExtractRefusesMalformedLengths : Prop :=
  ∀ s f, s.fbValid = true → f ∈ s.fb.frames → 9 ≤ f.dlc.toNat % 16 →
    ∃ t, exec .extractPayload s = .next t ∧ EndedWith (.precondFault .malformedDlc) 0x602#32 0#32 s t ∧
      OnlyOutcomeWritten s t

/-! ## The boundary commands -/

/-- R171: SET_EXT_HEADER makes one transport call; on ok the mode is extended and it ends OK, on an error the mode is
as it was and it ends TRANSPORT_ERROR with the transport's code. -/
def Obligations.SetExtHeaderFollowsTheTransport : Prop :=
  ∀ s, ∃ t, exec .setExtHeader s = .next t ∧
    t.transport.calls = .setExtendedHeader :: s.transport.calls ∧
    (s.headerAnswer = .ok → EndedWith .ok 0#32 0#32 s t ∧ t.readPlace .hdrMode = 1#32) ∧
    (∀ code, s.headerAnswer = .err code →
      EndedWith (.transportError code) 3#32 code s t ∧ t.hdrExt = s.hdrExt)

/-- R177, R179, R180: with a valid buffer SEND hands the transport exactly the valid frames in index order, in one call,
an empty list where there are none, and ends as the transport answers; no state but STATUS and TRANSPORT_CODE changes,
so after an error the batch is still valid. The transport port and the draw counter are the model's records. -/
def Obligations.SendHandsOverTheBatch : Prop :=
  ∀ s, s.fbValid = true →
    ∃ t, exec .send s = .next t ∧
      t.transport.calls = .send s.fb.frames :: s.transport.calls ∧
      (s.sendAnswer = .ok → EndedWith .ok 0#32 0#32 s t) ∧
      (∀ code, s.sendAnswer = .err code → EndedWith (.transportError code) 3#32 code s t) ∧
      OnlyOutcomeWritten { s with transport := t.transport, draws := t.draws } t

/-- R183 to R185: RECEIVE asks the transport for at most 25 frames, in one call; on ok the buffer holds the delivered
frames as they are, in order, whatever their IDs and DLC bytes, VALID is 1, RESULT and OUT_LEN are cleared, and it ends
OK. -/
def Obligations.ReceiveStoresTheBatchAsDelivered : Prop :=
  ∀ s b, s.rxAnswer = .ok b →
    ∃ t, exec .receive s = .next t ∧ EndedWith .ok 0#32 0#32 s t ∧
      t.transport.calls = .receive 25 :: s.transport.calls ∧
      t.fb = b ∧ t.readPlace .fbInfo = BitVec.ofNat 32 (0x100 + b.frames.length) ∧
      t.readPlace .result = 0#32 ∧ t.readPlace .outLen = 0#32

/-- R186: on a transport error RECEIVE leaves no valid buffer, RESULT and OUT_LEN cleared, and ends TRANSPORT_ERROR with
the transport's code. -/
def Obligations.ReceiveErrorInvalidatesTheBuffer : Prop :=
  ∀ s code, s.rxAnswer = .err code →
    ∃ t, exec .receive s = .next t ∧ EndedWith (.transportError code) 3#32 code s t ∧
      t.transport.calls = .receive 25 :: s.transport.calls ∧
      t.fb.frames = [] ∧ t.readPlace .fbInfo = 0#32 ∧ t.readPlace .result = 0#32 ∧ t.readPlace .outLen = 0#32

/-! ## Frames -/

/-- What ENCODE and RECEIVE leave unchanged: the operand registers, PIN, POUT, the header mode and the host. They write
the buffer, RESULT, OUT_LEN and the outcome (R43); RECEIVE also calls the transport, ENCODE does not. Where they clear
OUT_LEN all of POUT is unspecified to the host (R37); that the model keeps what it stored there, which no read shows, is
its own choice (log 7). -/
def Obligations.FrameOfTheBufferCommands : Prop :=
  ∀ s t i, (i = .receive ∨ ∃ r, i = .encode r) → exec i s = .next t →
    SameOperands s t ∧ SamePout s t ∧ t.hdrExt = s.hdrExt ∧ (i ≠ .receive → t.transport = s.transport)

/-- What DECODE_RTR, SEND and SET_EXT_HEADER leave unchanged: the operand registers, PIN, POUT, OUT_LEN, the buffer and
the host; RESULT but for DECODE_RTR, the header mode but for SET_EXT_HEADER, and the transport for DECODE_RTR (R43). That
the model's stored cells of POUT at or above OUT_LEN, unspecified to the host (R37), stay too is its own choice
(log 7). -/
def Obligations.FrameOfTheRegisterCommands : Prop :=
  ∀ s t i, (i = .send ∨ i = .setExtHeader ∨ ∃ k, i = .decodeRtr k) → exec i s = .next t →
    SameOperands s t ∧ SamePout s t ∧ t.outCount = s.outCount ∧ t.fb = s.fb ∧ t.fbValid = s.fbValid ∧
    ((∀ k, i ≠ .decodeRtr k) → t.resultRtr = s.resultRtr) ∧
    (i ≠ .setExtHeader → t.hdrExt = s.hdrExt) ∧
    ((∃ k, i = .decodeRtr k) → t.transport = s.transport)

/-- What EXTRACT_PAYLOAD leaves unchanged: everything but OUT_LEN, the outcome and the bytes of POUT it stores to, the
first OUT_LEN ones when it ends OK and none otherwise (R43, R147). The bytes after them are unspecified to the host
(R150); that the model keeps what it stored there, which no read shows, is its own choice (log 7). -/
def Obligations.FrameOfExtractPayload : Prop :=
  ∀ s t, exec .extractPayload s = .next t →
    SameOperands s t ∧ t.fb = s.fb ∧ t.fbValid = s.fbValid ∧ t.hdrExt = s.hdrExt ∧ t.resultRtr = s.resultRtr ∧
    t.transport = s.transport ∧
    (t.readPlace .status ≠ 0#32 → t.outCount = s.outCount ∧ SamePout s t) ∧
    (t.readPlace .status = 0#32 → ∀ a, (batchBytes s.fb.frames).length ≤ a → readCell t.pout a = readCell s.pout a)

/-! ## The laws of 40_codec.md section 5 -/

/-- R156: ENCODE 0 of `n` bytes of PIN, 0 to 200 of them, then EXTRACT_PAYLOAD, both end OK, OUT_LEN is `n`, and POUT
holds the same `n` bytes. -/
def Obligations.RoundTripGivesThePayloadBack : Prop :=
  ∀ s, idLegal s.hdrExt s.arbId = true → s.payloadLen.toNat ≤ 200 →
    (∀ i, i < s.payloadLen.toNat → readCell s.pin i ≠ none) →
    ∃ t u, exec (.encode false) s = .next t ∧ t.readPlace .status = 0#32 ∧
      exec .extractPayload t = .next u ∧ u.readPlace .status = 0#32 ∧
      (u.readPlace .outLen).toNat = s.payloadLen.toNat ∧
      ∀ i, i < s.payloadLen.toNat → readCell u.pout i = readCell s.pin i

/-- R157: after ENCODE 1 ends OK, LEN is 1, the frame's length field is 0, and DECODE_RTR 0 ends OK with RESULT 1. -/
def Obligations.RtrEncodeThenDecodeIsOne : Prop :=
  ∀ s t, exec (.encode true) s = .next t → t.readPlace .status = 0#32 →
    t.readPlace .fbInfo = 0x101#32 ∧ (∀ f ∈ t.fb.frames, f.dlc.toNat % 16 = 0) ∧
    ∃ u, exec (.decodeRtr 0) t = .next u ∧ u.readPlace .status = 0#32 ∧ u.readPlace .result = 1#32

/-- R158: after ENCODE 0 ends OK, DECODE_RTR k ends OK with RESULT 0 for every k below LEN. -/
def Obligations.DataEncodeThenDecodeIsZero : Prop :=
  ∀ s t k, exec (.encode false) s = .next t → t.readPlace .status = 0#32 → k < t.fb.frames.length →
    ∃ u, exec (.decodeRtr k) t = .next u ∧ u.readPlace .status = 0#32 ∧ u.readPlace .result = 0#32

/-- R159: 8k bytes, k from 1 to 25, make exactly k frames with DLC byte 8 each; more than 200 bytes end ABORTED and
leave no valid buffer. -/
def Obligations.MultipleOfEightMakesFullFrames : Prop :=
  ∀ s, idLegal s.hdrExt s.arbId = true →
    (∀ k, 1 ≤ k → k ≤ 25 → s.payloadLen.toNat = 8 * k →
      ∃ t, exec (.encode false) s = .next t ∧ t.readPlace .status = 0#32 ∧ t.fb.frames.length = k ∧
        ∀ f ∈ t.fb.frames, f.dlc = 8#8) ∧
    (200 < s.payloadLen.toNat →
      ∃ t, exec (.encode false) s = .next t ∧ t.readPlace .status = 1#32 ∧ t.fbValid = false)

/-! ## Whole-machine rules -/

/-- R207: which outcome each command reports, the first condition that holds winning. -/
def Obligations.OutcomePriority : Prop :=
  ∀ s t i, exec i s = .next t → ∃ o, t.record = o :: s.record ∧ OutcomeByPriority s o i

/-- R253, R201: every command ends, from every state, with exactly one outcome, added to the record, and STATUS and
TRANSPORT_CODE read as the outcome's row says. -/
def Obligations.EveryCommandWritesItsOutcome : Prop :=
  ∀ s i, ∃ t o, exec i s = .next t ∧ t.record = o :: s.record ∧ ReadsAsOutcome t o

/-- R204: a CMD write that ends in a precondition fault, from the decoder or from the command, reads STATUS 2 plus the
cause in bits [11:8] and TRANSPORT_CODE 0, changes nothing else (but the model's record), and makes no transport call. -/
def Obligations.PrecondFaultChangesNothingElse : Prop :=
  ∀ s t w, issueCommand w s = .next t → t.status.code = 2#2 →
    (∃ c, t.record = .precondFault c :: s.record ∧ t.readPlace .status = 2#32 ||| (causeNumber c <<< 8)) ∧
    t.readPlace .transportCode = 0#32 ∧ OnlyOutcomeWritten s t ∧ t.transport.calls = s.transport.calls

/-- R170: each of SET_EXT_HEADER and RECEIVE, and SEND with a valid buffer, makes exactly one call on the transport
port; every other command makes none. -/
def Obligations.OneTransportCallPerBoundaryCommand : Prop :=
  ∀ s t i, exec i s = .next t →
    (i = .setExtHeader ∨ i = .receive ∨ (i = .send ∧ s.fbValid = true) →
      ∃ call, t.transport.calls = call :: s.transport.calls) ∧
    ((∃ r, i = .encode r) ∨ (∃ k, i = .decodeRtr k) ∨ i = .extractPayload ∨ (i = .send ∧ s.fbValid = false) →
      t.transport.calls = s.transport.calls)

/-- R39, R172: the header mode never goes back to standard in a step, unless the platform asserts reset; and a step that
turns it to extended is a SET_EXT_HEADER. -/
def Obligations.HeaderModeOnlyEverTurnsExtended : Prop :=
  ∀ s t, step s = .next t → ¬ NextLine s .platformReset →
    (s.hdrExt = true → t.hdrExt = true) ∧
    (s.hdrExt = false → t.hdrExt = true →
      ∃ v, NextLine s (.wr 0x000 v) ∧ OperandIs s v 0x00000004#32)

/-- R38: the header mode has a part in nothing but the legality of ENCODE's ID: every other command but SET_EXT_HEADER,
and ENCODE with an ID legal in both modes, does the same in either mode. -/
def Obligations.HeaderModeDecidesOnlyLegality : Prop :=
  ∀ s t i b, i ≠ .setExtHeader → ((∃ r, i = .encode r) → s.arbId.toNat < 2 ^ 11) → exec i s = .next t →
    exec i { s with hdrExt := b } = .next { t with hdrExt := b }

/-- R32: no command reads STATUS, TRANSPORT_CODE, RESULT, OUT_LEN or POUT. From two states that differ only there (and
in the host and the model's record) every command reports the same outcome, makes the same transport calls and leaves
the same buffer, mode, operands and payload-in memory; and what it writes of RESULT, OUT_LEN and POUT is the same too:
RESULT after a DECODE_RTR that ends OK, OUT_LEN and the bytes of POUT below it after an EXTRACT_PAYLOAD that ends OK,
RESULT and OUT_LEN after an ENCODE or a RECEIVE that does not end in a precondition fault. -/
def Obligations.CommandsIgnoreTheResultRegisters : Prop :=
  ∀ s s' t t' i,
    s' = { s with
      status := s'.status, transportCode := s'.transportCode, resultRtr := s'.resultRtr,
      outCount := s'.outCount, pout := s'.pout, host := s'.host, record := s'.record } →
    exec i s = .next t → exec i s' = .next t' →
    (t'.status = t.status ∧ t'.transportCode = t.transportCode ∧ t'.transport = t.transport ∧ t'.fb = t.fb ∧
      t'.fbValid = t.fbValid ∧ t'.hdrExt = t.hdrExt ∧ t'.arbId = t.arbId ∧ t'.payloadLen = t.payloadLen ∧
      t'.pin = t.pin) ∧
    ((∃ k, i = .decodeRtr k) → t.readPlace .status = 0#32 → t'.resultRtr = t.resultRtr) ∧
    (i = .extractPayload → t.readPlace .status = 0#32 → t'.outCount = t.outCount ∧
      ∀ a, a < t.outCount.toNat → readCell t'.pout a = readCell t.pout a) ∧
    ((i = .receive ∨ ∃ r, i = .encode r) → t.status.code ≠ 2#2 →
      t'.resultRtr = t.resultRtr ∧ t'.outCount = t.outCount)

/-- R145, R151: DECODE_RTR and EXTRACT_PAYLOAD can be repeated: run again after ending OK, the same command ends OK and
RESULT and OUT_LEN stay as they were, and so does POUT. R151 gives only the extracted bytes again, those below OUT_LEN,
and R150 makes the bytes from there up unspecified; that the model's stored cells are the same there too, which no read
shows, is its own choice (log 7). -/
def Obligations.DecodingCanBeRepeated : Prop :=
  ∀ s t i, (i = .extractPayload ∨ ∃ k, i = .decodeRtr k) → exec i s = .next t → t.readPlace .status = 0#32 →
    ∃ u, exec i t = .next u ∧ u.readPlace .status = 0#32 ∧ u.resultRtr = t.resultRtr ∧ u.outCount = t.outCount ∧
      SamePout t u

/-- R42, R245: after ENCODE ends OK or ABORTED, and after every RECEIVE, RESULT and OUT_LEN read 0: no decode result
outlives the buffer it described. -/
def Obligations.NoDecodeResultOutlivesItsBuffer : Prop :=
  ∀ s t i, (i = .receive ∨ ∃ r, i = .encode r) → exec i s = .next t → t.status.code ≠ 2#2 →
    t.readPlace .result = 0#32 ∧ t.readPlace .outLen = 0#32

/-- The window starts at CODEC_BASE, a multiple of 4096, and holds the 4096 addresses from there on: the offset of the
address of an offset is that offset, and no other address has one (R60, R61). -/
def Obligations.WindowIsOnePageAtTheBase : Prop :=
  Config.codecBase % 4096 = 0 ∧ (∀ off, off ≤ 0xFFF → offsetOf (addressOf off) = some off) ∧
  ∀ addr off, offsetOf addr = some off → addr = addressOf off ∧ off ≤ 0xFFF

/-- R211: the model's record never loses an outcome: a step adds one outcome or leaves the record as it is, a platform
reset included. Where the record starts, and that a reset keeps it, is the model's choice (log 5). -/
def Obligations.RecordNeverLosesAnOutcome : Prop :=
  ∀ s t, step s = .next t → t.record = s.record ∨ ∃ o, t.record = o :: s.record
end

