-- ==== Sys2Proof/Laws/Memory.lean ====
section
/-! SUPPORT. The laws of the byte memories and of the host temporaries: read after write, writes elsewhere, and that
every operation keeps the canonical form. -/

namespace Sys2Proof.Machine

/-! One cell. -/

@[simp] theorem readCell_writeCell_same (m : Memory) (a : Nat) (b : Byte) : readCell (writeCell m a b) a = some b := by
  induction m with
  | nil => simp [writeCell, readCell]
  | cons c rest ih =>
    unfold writeCell
    split
    · rw [readCell, if_neg (by omega), ih]
    · split <;> simp [readCell]

theorem readCell_writeCell_other {m : Memory} {a k : Nat} {b : Byte} (h : a ≠ k) :
    readCell (writeCell m k b) a = readCell m a := by
  induction m with
  | nil => simp [writeCell, readCell, Ne.symm h]
  | cons c rest ih =>
    unfold writeCell
    split
    · simp [readCell, ih]
    · split
      · rename_i hk
        simp [readCell, hk, Ne.symm h]
      · simp [readCell, Ne.symm h]

theorem risesAbove_of_lt {a k : Nat} {m : List Host.Cell} (h : a ≤ k) (hm : Memory.risesAbove k m = true) :
    Memory.risesAbove a m = true := by
  cases m with
  | nil => rfl
  | cons c rest =>
    simp only [Memory.risesAbove, Bool.and_eq_true, decide_eq_true_eq] at hm ⊢
    exact ⟨by omega, hm.2⟩

theorem risesAbove_writeCell {a k : Nat} {m : Memory} {b : Byte} (hk : a < k) (hm : Memory.risesAbove a m = true) :
    Memory.risesAbove a (writeCell m k b) = true := by
  induction m generalizing a with
  | nil => simp [writeCell, Memory.risesAbove, hk]
  | cons c rest ih =>
    simp only [Memory.risesAbove, Bool.and_eq_true, decide_eq_true_eq] at hm
    unfold writeCell
    split
    · rename_i hc
      simp [Memory.risesAbove, hm.1, ih hc hm.2]
    · split
      · rename_i hc
        subst hc
        simp [Memory.risesAbove, hm.1, hm.2]
      · simp only [Memory.risesAbove, Bool.and_eq_true, decide_eq_true_eq]
        exact ⟨hk, by omega, hm.2⟩

theorem wf_writeCell {m : Memory} {k : Nat} {b : Byte} (hm : Memory.wf m = true) :
    Memory.wf (writeCell m k b) = true := by
  cases m with
  | nil => rfl
  | cons c rest =>
    simp only [Memory.wf] at hm
    unfold writeCell
    split
    · rename_i hc
      exact risesAbove_writeCell hc hm
    · split
      · rename_i hc
        subst hc
        simpa [Memory.wf] using hm
      · simp only [Memory.wf, Memory.risesAbove, Bool.and_eq_true, decide_eq_true_eq]
        exact ⟨by omega, hm⟩

theorem within_writeCell {m : Memory} {k : Nat} {b : Byte} (hk : k < Config.maxPayload)
    (hm : memoryWithin m = true) : memoryWithin (writeCell m k b) = true := by
  induction m with
  | nil => simp [writeCell, memoryWithin, hk]
  | cons c rest ih =>
    have hr : memoryWithin rest = true := by
      simp only [memoryWithin, List.all_cons, Bool.and_eq_true] at hm ⊢; exact hm.2
    have hc : decide (c.1 < Config.maxPayload) = true := by
      simp only [memoryWithin, List.all_cons, Bool.and_eq_true] at hm; exact hm.1
    have key : ∀ r : Memory, memoryWithin r = true → memoryWithin (c :: r) = true := fun r h => by
      simp only [memoryWithin, List.all_cons, Bool.and_eq_true] at h ⊢; exact ⟨hc, h⟩
    have keyk : ∀ r : Memory, memoryWithin r = true → memoryWithin ((k, b) :: r) = true := fun r h => by
      simp only [memoryWithin, List.all_cons, Bool.and_eq_true] at h ⊢; exact ⟨by simpa using hk, h⟩
    unfold writeCell
    split
    · exact key _ (ih hr)
    · split
      · exact keyk _ hr
      · exact keyk _ (key _ hr)

/-- The memories of the reset state are in canonical form. -/
theorem wf_reset : Memory.wf State.reset.pin = true ∧ Memory.wf State.reset.pout = true := by decide

/-! Runs of bytes. -/

theorem readCell_memWrite_outside {m : Memory} {i a : Nat} {bytes : List Byte}
    (h : a < i ∨ i + bytes.length ≤ a) : readCell (memWrite m i bytes) a = readCell m a := by
  induction bytes generalizing m i with
  | nil => rfl
  | cons b rest ih =>
    simp only [List.length_cons] at h
    rw [memWrite, ih (by omega), readCell_writeCell_other (by omega)]

theorem readCell_memWrite_inside {m : Memory} {i j : Nat} {bytes : List Byte} (h : j < bytes.length) :
    readCell (memWrite m i bytes) (i + j) = bytes[j]? := by
  induction bytes generalizing m i j with
  | nil => simp at h
  | cons b rest ih =>
    rw [memWrite]
    cases j with
    | zero => rw [readCell_memWrite_outside (by omega)]; simp
    | succ j =>
      have := ih (m := writeCell m i b) (i := i + 1) (j := j) (by simpa using h)
      rw [show i + (j + 1) = i + 1 + j by omega, this]; simp

theorem wf_memWrite {m : Memory} {i : Nat} {bytes : List Byte} (hm : Memory.wf m = true) :
    Memory.wf (memWrite m i bytes) = true := by
  induction bytes generalizing m i with
  | nil => exact hm
  | cons b rest ih => exact ih (wf_writeCell hm)

theorem within_memWrite {m : Memory} {i : Nat} {bytes : List Byte} (h : i + bytes.length ≤ Config.maxPayload)
    (hm : memoryWithin m = true) : memoryWithin (memWrite m i bytes) = true := by
  induction bytes generalizing m i with
  | nil => exact hm
  | cons b rest ih =>
    simp only [List.length_cons] at h
    exact ih (by omega) (within_writeCell (by omega) hm)

@[simp] theorem length_memRead (m : Memory) (draw i n : Nat) : (memRead m draw i n).length = n := by simp [memRead]

theorem getElem?_memRead {m : Memory} {draw i n j : Nat} (h : j < n) :
    (memRead m draw i n)[j]? = some (byteAt m draw (i + j)) := by
  simp [memRead, List.getElem?_map, List.getElem?_range h]

theorem byteAt_of_readCell {m : Memory} {draw a : Nat} {b : Byte} (h : readCell m a = some b) :
    byteAt m draw a = b := by simp [byteAt, h]

/-! Host temporaries. -/

@[simp] theorem readTemp_writeTemp_same (m : List (Temp × Word)) (t : Temp) (w : Word) :
    readTemp (writeTemp m t w) t = some w := by
  induction m with
  | nil => simp [writeTemp, readTemp]
  | cons c rest ih =>
    unfold writeTemp
    split
    · rename_i hc
      rw [readTemp, if_neg (Nat.ne_of_lt hc), ih]
    · split <;> simp [readTemp]

theorem readTemp_writeTemp_other {m : List (Temp × Word)} {u t : Temp} {w : Word} (h : u ≠ t) :
    readTemp (writeTemp m t w) u = readTemp m u := by
  induction m with
  | nil => simp [writeTemp, readTemp, Ne.symm h]
  | cons c rest ih =>
    unfold writeTemp
    split
    · simp [readTemp, ih]
    · split
      · rename_i hk
        simp [readTemp, hk, Ne.symm h]
      · simp [readTemp, Ne.symm h]

theorem tempsRiseAbove_writeTemp {a : Nat} {m : List (Temp × Word)} {t : Temp} {w : Word} (hk : a < t)
    (hm : tempsRiseAbove a m = true) : tempsRiseAbove a (writeTemp m t w) = true := by
  induction m generalizing a with
  | nil => simp [writeTemp, tempsRiseAbove, hk]
  | cons c rest ih =>
    simp only [tempsRiseAbove, Bool.and_eq_true, decide_eq_true_eq] at hm
    unfold writeTemp
    split
    · rename_i hc
      simp [tempsRiseAbove, hm.1, ih hc hm.2]
    · split
      · rename_i hc
        subst hc
        simp [tempsRiseAbove, hm.1, hm.2]
      · rename_i hlt hne
        simp only [tempsRiseAbove, Bool.and_eq_true, decide_eq_true_eq]
        exact ⟨hk, Nat.lt_of_le_of_ne (Nat.le_of_not_lt hlt) (Ne.symm hne), hm.2⟩

theorem tempsWf_writeTemp {m : List (Temp × Word)} {t : Temp} {w : Word} (hm : tempsWf m = true) :
    tempsWf (writeTemp m t w) = true := by
  cases m with
  | nil => rfl
  | cons c rest =>
    simp only [tempsWf] at hm
    unfold writeTemp
    split
    · rename_i hc
      exact tempsRiseAbove_writeTemp hc hm
    · split
      · rename_i hc
        subst hc
        simpa [tempsWf] using hm
      · rename_i hlt hne
        simp only [tempsWf, tempsRiseAbove, Bool.and_eq_true, decide_eq_true_eq]
        exact ⟨Nat.lt_of_le_of_ne (Nat.le_of_not_lt hlt) (Ne.symm hne), hm⟩

end Sys2Proof.Machine
end

