-- ==== Sys2Proof/Laws/Codec.lean ====
section
/-! SUPPORT. The laws of the DLC byte, of the frame count and chunks, of ENCODE's frames and of the extracted bytes. -/

namespace Sys2Proof.Machine

/-! The DLC byte. -/

theorem dlcLength_eq (b : Byte) : dlcLength b = b.toNat % 16 := by simp [dlcLength]

theorem dlcIsRtr_toNat (b : Byte) : (dlcIsRtr b).toNat = b.toNat / 16 % 2 := by
  simp only [dlcIsRtr, Config.rtrBit, BitVec.getLsbD, Nat.toNat_testBit]

theorem dlcWellFormed_iff (b : Byte) : dlcWellFormed b = true ↔ b.toNat % 16 ≤ 8 := by
  simp [dlcWellFormed, dlcLength_eq]

theorem dlcByte_false (c : Nat) : dlcByte c false = BitVec.ofNat 8 c := by simp [dlcByte]

theorem dlcLength_dlcByte_false {c : Nat} (h : c ≤ 8) : dlcLength (dlcByte c false) = c := by
  rw [dlcLength_eq, dlcByte_false, BitVec.toNat_ofNat]; omega

theorem dlcIsRtr_dlcByte_false {c : Nat} (h : c ≤ 8) : dlcIsRtr (dlcByte c false) = false := by
  have := dlcIsRtr_toNat (dlcByte c false)
  rw [dlcByte_false, BitVec.toNat_ofNat, show c % 2 ^ 8 / 16 % 2 = 0 by omega] at this
  rw [dlcByte_false]
  cases hb : dlcIsRtr (BitVec.ofNat 8 c) <;> simp_all

theorem dlcByte_rtr : dlcByte 0 true = 0x10#8 := by decide

/-! The frame count and the chunks (R134). -/

theorem frameCount_eq (n : Nat) : frameCount n = n / 8 + if 0 < n % 8 then 1 else 0 := rfl

theorem frameCount_le_iff (n : Nat) : frameCount n ≤ 25 ↔ n ≤ 200 := by
  rw [frameCount_eq]; split <;> omega

theorem chunkLen_eq (n x : Nat) : chunkLen n x = if x + 1 = frameCount n ∧ 0 < n % 8 then n % 8 else 8 := rfl

theorem chunkLen_bounds (n x : Nat) : 1 ≤ chunkLen n x ∧ chunkLen n x ≤ 8 := by
  rw [chunkLen_eq]; split <;> omega

/-- The chunks tile the payload: chunk `x` ends where chunk `x + 1` starts, or at the payload's end. -/
theorem chunk_end (n x : Nat) :
    8 * x + chunkLen n x = if x + 1 = frameCount n then n else 8 * (x + 1) := by
  rw [chunkLen_eq]
  rw [frameCount_eq]
  by_cases hr : 0 < n % 8
  · simp only [hr, if_true, and_true]
    split <;> omega
  · simp only [hr, if_false, and_false]
    split <;> omega

/-! The frames ENCODE builds. -/

@[simp] theorem length_dataFrames (s : State) : (dataFrames s).length = frameCount s.payloadLength := by
  simp [dataFrames]

theorem getElem?_dataFrames {s : State} {x : Nat} (h : x < frameCount s.payloadLength) :
    (dataFrames s)[x]? = some (dataFrame s x) := by
  simp [dataFrames, List.getElem?_range h]

theorem mem_dataFrames {s : State} {f : Frame} :
    f ∈ dataFrames s ↔ ∃ x, x < frameCount s.payloadLength ∧ dataFrame s x = f := by
  simp [dataFrames]

theorem toList_padData (bytes : List Byte) :
    (padData bytes).toList = (bytes ++ List.replicate 8 Config.padByte).take 8 := rfl

theorem padData_byte {bytes : List Byte} {j : Nat} (hb : bytes.length ≤ 8) (h : j < bytes.length) :
    (padData bytes).toList[j]? = bytes[j]? := by
  rw [toList_padData, List.getElem?_take_of_lt (by omega), List.getElem?_append_left h]

theorem padData_pad {bytes : List Byte} {j : Nat} (h : bytes.length ≤ j) (h8 : j < 8) :
    (padData bytes).toList[j]? = some 0#8 := by
  rw [toList_padData, List.getElem?_take_of_lt h8, List.getElem?_append_right h, List.getElem?_replicate,
    if_pos (by omega)]
  rfl

theorem toList_padData_take {bytes : List Byte} (hb : bytes.length ≤ 8) :
    (padData bytes).toList.take bytes.length = bytes := by
  rw [toList_padData, List.take_take, Nat.min_eq_left hb, List.take_left]

/-- Frame `x` of ENCODE carries just its chunk of PIN (R136). -/
theorem frameBytes_dataFrame (s : State) (x : Nat) :
    frameBytes (dataFrame s x) = memRead s.pin s.draws (8 * x) (chunkLen s.payloadLength x) := by
  have hb := (chunkLen_bounds s.payloadLength x).2
  rw [frameBytes, dataFrame, dlcLength_dlcByte_false hb]
  have := toList_padData_take (bytes := memRead s.pin s.draws (8 * x) (chunkLen s.payloadLength x)) (by simpa using hb)
  rwa [length_memRead] at this

theorem memRead_append (m : Memory) (d i a b : Nat) :
    memRead m d i a ++ memRead m d (i + a) b = memRead m d i (a + b) := by
  simp [memRead, List.range_add, Nat.add_assoc]

/-- The first `k` frames of ENCODE carry the payload up to their end. -/
theorem batchBytes_prefix (s : State) : ∀ k, k ≤ frameCount s.payloadLength →
    batchBytes ((List.range k).map (dataFrame s)) =
      memRead s.pin s.draws 0 (if k = frameCount s.payloadLength then s.payloadLength else 8 * k)
  | 0, _ => by
    rw [frameCount_eq]
    have : (if 0 = s.payloadLength / 8 + (if 0 < s.payloadLength % 8 then 1 else 0) then s.payloadLength
        else 8 * 0) = 0 := by split <;> split <;> omega
    rw [this]; rfl
  | k + 1, hk => by
    have ih := batchBytes_prefix s k (by omega)
    rw [if_neg (by omega)] at ih
    have he := chunk_end s.payloadLength k
    rw [List.range_succ, List.map_append, batchBytes, List.flatMap_append]
    rw [batchBytes] at ih
    rw [ih, List.map_singleton, List.flatMap_singleton, frameBytes_dataFrame]
    have := memRead_append s.pin s.draws 0 (8 * k) (chunkLen s.payloadLength k)
    rw [Nat.zero_add] at this
    rw [this, he]

/-- Together ENCODE's frames carry the payload (R134, R136, R149). -/
theorem batchBytes_dataFrames (s : State) : batchBytes (dataFrames s) = memRead s.pin s.draws 0 s.payloadLength := by
  rw [dataFrames, batchBytes_prefix s _ (Nat.le_refl _), if_pos rfl]

theorem allWellFormed_iff (fs : List Frame) : allWellFormed fs = true ↔ ∀ f ∈ fs, f.dlc.toNat % 16 ≤ 8 := by
  simp only [allWellFormed, List.all_eq_true, dlcWellFormed_iff]

theorem allWellFormed_dataFrames (s : State) : allWellFormed (dataFrames s) = true := by
  rw [allWellFormed_iff]
  intro f hf
  obtain ⟨x, _, rfl⟩ := mem_dataFrames.1 hf
  have hb := (chunkLen_bounds s.payloadLength x).2
  rw [← dlcLength_eq]
  exact (dlcLength_dlcByte_false hb).trans_le hb

/-! The extracted bytes. -/

theorem length_frameBytes_le (f : Frame) : (frameBytes f).length ≤ 8 := by
  simp [frameBytes]

theorem length_batchBytes_le (fs : List Frame) : (batchBytes fs).length ≤ 8 * fs.length := by
  induction fs with
  | nil => simp [batchBytes]
  | cons f rest ih =>
    have := length_frameBytes_le f
    simp only [batchBytes, List.flatMap_cons, List.length_append, List.length_cons] at ih ⊢
    omega

/-- The output fits in POUT (R150). -/
theorem length_batchBytes_batch (b : Batch) : (batchBytes b.frames).length ≤ 200 := by
  have := length_batchBytes_le b.frames
  have := b.bound
  simp only [Config.canBufferSize] at this
  omega

theorem batchBytes_eq_flatten (fs : List Frame) :
    batchBytes fs = (fs.map fun f => f.data.toList.take (f.dlc.toNat % 16)).flatten := by
  have : frameBytes = fun f => f.data.toList.take (f.dlc.toNat % 16) := by
    funext f; rw [frameBytes, dlcLength_eq]
  rw [batchBytes, List.flatMap_def, this]

/-! The header mode (R38). -/

theorem idLegal_iff (ext : Bool) (id : ArbId) : idLegal ext id = true ↔ ext = true ∨ id.toNat < 2 ^ 11 := by
  simp [idLegal, Config.stdIdWidth]

theorem idLegal_eq_false_iff (ext : Bool) (id : ArbId) :
    idLegal ext id = false ↔ ext = false ∧ 2 ^ 11 ≤ id.toNat := by
  cases ext <;> simp [idLegal, Config.stdIdWidth]

end Sys2Proof.Machine
end

