-- ==== Sys2Proof/Laws/Decode.lean ====
section
/-! SUPPORT. The fields of a word of format CMDW, and that they make the word up. -/

namespace Sys2Proof

@[simp] theorem opField_cmdw (idx : BitVec 5) (r : Bool) (op : BitVec 4) : opField (cmdw idx r op) = op := by
  ext i hi
  simp [opField, cmdw, hi, show i < 8 by omega, show i < 16 by omega, show i < 32 by omega]

@[simp] theorem rField_cmdw (idx : BitVec 5) (r : Bool) (op : BitVec 4) : rField (cmdw idx r op) = r := by
  simp [rField, cmdw]

@[simp] theorem idxField_cmdw (idx : BitVec 5) (r : Bool) (op : BitVec 4) : idxField (cmdw idx r op) = idx := by
  ext i hi
  simp [idxField, cmdw, BitVec.getLsbD_of_ge op (16 + i) (by omega), show 16 + i - 8 ≠ 0 by omega,
    show 16 + i < 32 by omega, BitVec.getLsbD_eq_getElem hi]

@[simp] theorem reservedClear_cmdw (idx : BitVec 5) (r : Bool) (op : BitVec 4) :
    reservedClear (cmdw idx r op) = true := by
  simp only [reservedClear, Bool.and_eq_true, beq_iff_eq]
  refine ⟨⟨?_, ?_⟩, ?_⟩ <;> ext i hi <;> simp [cmdw]
  · exact ⟨⟨fun _ _ _ => BitVec.getLsbD_of_ge _ _ (by omega), fun _ _ _ _ => by omega⟩,
      fun _ => BitVec.getLsbD_of_ge _ _ (by omega)⟩
  · exact ⟨⟨fun _ _ _ => by omega, fun _ _ _ _ => by omega⟩, fun _ => BitVec.getLsbD_of_ge _ _ (by omega)⟩
  · exact ⟨fun _ _ _ => by omega, fun _ _ _ _ => by omega⟩

/-- The reserved bits of a word, one by one. -/
theorem reserved_bits {w : Word} (h : reservedClear w = true) (i : Nat) (hi : i < 32)
    (hr : 21 ≤ i ∨ (9 ≤ i ∧ i < 16) ∨ (4 ≤ i ∧ i < 8)) : w.getLsbD i = false := by
  simp only [reservedClear, Bool.and_eq_true, beq_iff_eq] at h
  obtain ⟨⟨h1, h2⟩, h3⟩ := h
  have b1 := congrArg (fun v => v.getLsbD (i - 21)) h1
  have b2 := congrArg (fun v => v.getLsbD (i - 9)) h2
  have b3 := congrArg (fun v => v.getLsbD (i - 4)) h3
  simp only [BitVec.getLsbD_extractLsb', BitVec.getLsbD_zero, Bool.and_eq_false_iff, decide_eq_false_iff_not] at b1 b2 b3
  rcases hr with hr | hr | hr
  · rw [show i = 21 + (i - 21) by omega]; exact b1.resolve_left (by omega)
  · rw [show i = 9 + (i - 9) by omega]; exact b2.resolve_left (by omega)
  · rw [show i = 4 + (i - 4) by omega]; exact b3.resolve_left (by omega)

/-- A word whose reserved bits are clear is made up of its fields. -/
theorem eq_cmdw_of_reservedClear {w : Word} (h : reservedClear w = true) :
    w = cmdw (idxField w) (rField w) (opField w) := by
  ext i hi
  have hb := reserved_bits h i hi
  rw [BitVec.getLsbD_eq_getElem hi] at hb
  simp [cmdw, idxField, rField, opField]
  by_cases h21 : 21 ≤ i
  · simp [hb (.inl h21), show ¬ i - 16 < 5 by omega, show i - 8 ≠ 0 by omega, show ¬ i < 4 by omega]
  by_cases h16 : 16 ≤ i
  · simp [show ¬ i < 16 by omega, show i - 16 < 5 by omega, show 16 + (i - 16) = i by omega,
      show i - 8 ≠ 0 by omega, show ¬ i < 4 by omega, BitVec.getLsbD_eq_getElem hi]
  by_cases h9 : 9 ≤ i
  · simp [hb (.inr (.inl ⟨h9, by omega⟩)), show i < 16 by omega, show i - 8 ≠ 0 by omega, show ¬ i < 4 by omega]
  by_cases h8 : i = 8
  · subst h8; simp
  by_cases h4 : 4 ≤ i
  · simp [hb (.inr (.inr ⟨h4, by omega⟩)), show i < 16 by omega, show i < 8 by omega, show ¬ i < 4 by omega]
  · simp [show i < 16 by omega, show i < 8 by omega, show i < 4 by omega, BitVec.getLsbD_eq_getElem hi]

end Sys2Proof
end

