-- ==== Sys2Proof/Laws/State.lean ====
section
/-! SUPPORT. One lemma per field per update of State, so that no proof unfolds a record update. -/

namespace Sys2Proof.Machine

variable (s : State)

/-! drawn -/

@[simp] theorem State.drawn_status : s.drawn.status = s.status := rfl
@[simp] theorem State.drawn_arbId : s.drawn.arbId = s.arbId := rfl
@[simp] theorem State.drawn_payloadLen : s.drawn.payloadLen = s.payloadLen := rfl
@[simp] theorem State.drawn_fbValid : s.drawn.fbValid = s.fbValid := rfl
@[simp] theorem State.drawn_fb : s.drawn.fb = s.fb := rfl
@[simp] theorem State.drawn_hdrExt : s.drawn.hdrExt = s.hdrExt := rfl
@[simp] theorem State.drawn_resultRtr : s.drawn.resultRtr = s.resultRtr := rfl
@[simp] theorem State.drawn_outCount : s.drawn.outCount = s.outCount := rfl
@[simp] theorem State.drawn_transportCode : s.drawn.transportCode = s.transportCode := rfl
@[simp] theorem State.drawn_pin : s.drawn.pin = s.pin := rfl
@[simp] theorem State.drawn_pout : s.drawn.pout = s.pout := rfl
@[simp] theorem State.drawn_transport : s.drawn.transport = s.transport := rfl
@[simp] theorem State.drawn_host : s.drawn.host = s.host := rfl
@[simp] theorem State.drawn_draws : s.drawn.draws = s.draws + 1 := rfl
@[simp] theorem State.drawn_record : s.drawn.record = s.record := rfl

/-! replaceFB -/

@[simp] theorem State.replaceFB_status (b : Batch) : (s.replaceFB b).status = s.status := rfl
@[simp] theorem State.replaceFB_arbId (b : Batch) : (s.replaceFB b).arbId = s.arbId := rfl
@[simp] theorem State.replaceFB_payloadLen (b : Batch) : (s.replaceFB b).payloadLen = s.payloadLen := rfl
@[simp] theorem State.replaceFB_fbValid (b : Batch) : (s.replaceFB b).fbValid = true := rfl
@[simp] theorem State.replaceFB_fb (b : Batch) : (s.replaceFB b).fb = b := rfl
@[simp] theorem State.replaceFB_hdrExt (b : Batch) : (s.replaceFB b).hdrExt = s.hdrExt := rfl
@[simp] theorem State.replaceFB_resultRtr (b : Batch) : (s.replaceFB b).resultRtr = false := rfl
@[simp] theorem State.replaceFB_outCount (b : Batch) : (s.replaceFB b).outCount = 0 := rfl
@[simp] theorem State.replaceFB_transportCode (b : Batch) : (s.replaceFB b).transportCode = s.transportCode := rfl
@[simp] theorem State.replaceFB_pin (b : Batch) : (s.replaceFB b).pin = s.pin := rfl
@[simp] theorem State.replaceFB_pout (b : Batch) : (s.replaceFB b).pout = s.pout := rfl
@[simp] theorem State.replaceFB_transport (b : Batch) : (s.replaceFB b).transport = s.transport := rfl
@[simp] theorem State.replaceFB_host (b : Batch) : (s.replaceFB b).host = s.host := rfl
@[simp] theorem State.replaceFB_draws (b : Batch) : (s.replaceFB b).draws = s.draws := rfl
@[simp] theorem State.replaceFB_record (b : Batch) : (s.replaceFB b).record = s.record := rfl

/-! invalidateFB -/

@[simp] theorem State.invalidateFB_status : s.invalidateFB.status = s.status := rfl
@[simp] theorem State.invalidateFB_arbId : s.invalidateFB.arbId = s.arbId := rfl
@[simp] theorem State.invalidateFB_payloadLen : s.invalidateFB.payloadLen = s.payloadLen := rfl
@[simp] theorem State.invalidateFB_fbValid : s.invalidateFB.fbValid = false := rfl
@[simp] theorem State.invalidateFB_fb : s.invalidateFB.fb = Batch.empty := rfl
@[simp] theorem State.invalidateFB_hdrExt : s.invalidateFB.hdrExt = s.hdrExt := rfl
@[simp] theorem State.invalidateFB_resultRtr : s.invalidateFB.resultRtr = false := rfl
@[simp] theorem State.invalidateFB_outCount : s.invalidateFB.outCount = 0 := rfl
@[simp] theorem State.invalidateFB_transportCode : s.invalidateFB.transportCode = s.transportCode := rfl
@[simp] theorem State.invalidateFB_pin : s.invalidateFB.pin = s.pin := rfl
@[simp] theorem State.invalidateFB_pout : s.invalidateFB.pout = s.pout := rfl
@[simp] theorem State.invalidateFB_transport : s.invalidateFB.transport = s.transport := rfl
@[simp] theorem State.invalidateFB_host : s.invalidateFB.host = s.host := rfl
@[simp] theorem State.invalidateFB_draws : s.invalidateFB.draws = s.draws := rfl
@[simp] theorem State.invalidateFB_record : s.invalidateFB.record = s.record := rfl

/-! setResult -/

@[simp] theorem State.setResult_status (b : Bool) : (s.setResult b).status = s.status := rfl
@[simp] theorem State.setResult_arbId (b : Bool) : (s.setResult b).arbId = s.arbId := rfl
@[simp] theorem State.setResult_payloadLen (b : Bool) : (s.setResult b).payloadLen = s.payloadLen := rfl
@[simp] theorem State.setResult_fbValid (b : Bool) : (s.setResult b).fbValid = s.fbValid := rfl
@[simp] theorem State.setResult_fb (b : Bool) : (s.setResult b).fb = s.fb := rfl
@[simp] theorem State.setResult_hdrExt (b : Bool) : (s.setResult b).hdrExt = s.hdrExt := rfl
@[simp] theorem State.setResult_resultRtr (b : Bool) : (s.setResult b).resultRtr = b := rfl
@[simp] theorem State.setResult_outCount (b : Bool) : (s.setResult b).outCount = s.outCount := rfl
@[simp] theorem State.setResult_transportCode (b : Bool) : (s.setResult b).transportCode = s.transportCode := rfl
@[simp] theorem State.setResult_pin (b : Bool) : (s.setResult b).pin = s.pin := rfl
@[simp] theorem State.setResult_pout (b : Bool) : (s.setResult b).pout = s.pout := rfl
@[simp] theorem State.setResult_transport (b : Bool) : (s.setResult b).transport = s.transport := rfl
@[simp] theorem State.setResult_host (b : Bool) : (s.setResult b).host = s.host := rfl
@[simp] theorem State.setResult_draws (b : Bool) : (s.setResult b).draws = s.draws := rfl
@[simp] theorem State.setResult_record (b : Bool) : (s.setResult b).record = s.record := rfl

/-! setExtracted -/

@[simp] theorem State.setExtracted_status (bs : List Byte) : (s.setExtracted bs).status = s.status := rfl
@[simp] theorem State.setExtracted_arbId (bs : List Byte) : (s.setExtracted bs).arbId = s.arbId := rfl
@[simp] theorem State.setExtracted_payloadLen (bs : List Byte) : (s.setExtracted bs).payloadLen = s.payloadLen := rfl
@[simp] theorem State.setExtracted_fbValid (bs : List Byte) : (s.setExtracted bs).fbValid = s.fbValid := rfl
@[simp] theorem State.setExtracted_fb (bs : List Byte) : (s.setExtracted bs).fb = s.fb := rfl
@[simp] theorem State.setExtracted_hdrExt (bs : List Byte) : (s.setExtracted bs).hdrExt = s.hdrExt := rfl
@[simp] theorem State.setExtracted_resultRtr (bs : List Byte) : (s.setExtracted bs).resultRtr = s.resultRtr := rfl
@[simp] theorem State.setExtracted_outCount (bs : List Byte) : (s.setExtracted bs).outCount = BitVec.ofNat 8 bs.length := rfl
@[simp] theorem State.setExtracted_transportCode (bs : List Byte) : (s.setExtracted bs).transportCode = s.transportCode := rfl
@[simp] theorem State.setExtracted_pin (bs : List Byte) : (s.setExtracted bs).pin = s.pin := rfl
@[simp] theorem State.setExtracted_pout (bs : List Byte) : (s.setExtracted bs).pout = memWrite s.pout 0 bs := rfl
@[simp] theorem State.setExtracted_transport (bs : List Byte) : (s.setExtracted bs).transport = s.transport := rfl
@[simp] theorem State.setExtracted_host (bs : List Byte) : (s.setExtracted bs).host = s.host := rfl
@[simp] theorem State.setExtracted_draws (bs : List Byte) : (s.setExtracted bs).draws = s.draws := rfl
@[simp] theorem State.setExtracted_record (bs : List Byte) : (s.setExtracted bs).record = s.record := rfl

/-! setExtended -/

@[simp] theorem State.setExtended_status : s.setExtended.status = s.status := rfl
@[simp] theorem State.setExtended_arbId : s.setExtended.arbId = s.arbId := rfl
@[simp] theorem State.setExtended_payloadLen : s.setExtended.payloadLen = s.payloadLen := rfl
@[simp] theorem State.setExtended_fbValid : s.setExtended.fbValid = s.fbValid := rfl
@[simp] theorem State.setExtended_fb : s.setExtended.fb = s.fb := rfl
@[simp] theorem State.setExtended_hdrExt : s.setExtended.hdrExt = true := rfl
@[simp] theorem State.setExtended_resultRtr : s.setExtended.resultRtr = s.resultRtr := rfl
@[simp] theorem State.setExtended_outCount : s.setExtended.outCount = s.outCount := rfl
@[simp] theorem State.setExtended_transportCode : s.setExtended.transportCode = s.transportCode := rfl
@[simp] theorem State.setExtended_pin : s.setExtended.pin = s.pin := rfl
@[simp] theorem State.setExtended_pout : s.setExtended.pout = s.pout := rfl
@[simp] theorem State.setExtended_transport : s.setExtended.transport = s.transport := rfl
@[simp] theorem State.setExtended_host : s.setExtended.host = s.host := rfl
@[simp] theorem State.setExtended_draws : s.setExtended.draws = s.draws := rfl
@[simp] theorem State.setExtended_record : s.setExtended.record = s.record := rfl

/-! endWith -/

@[simp] theorem State.endWith_status (o : CmdOutcome) : (s.endWith o).status = statusOf o := rfl
@[simp] theorem State.endWith_arbId (o : CmdOutcome) : (s.endWith o).arbId = s.arbId := rfl
@[simp] theorem State.endWith_payloadLen (o : CmdOutcome) : (s.endWith o).payloadLen = s.payloadLen := rfl
@[simp] theorem State.endWith_fbValid (o : CmdOutcome) : (s.endWith o).fbValid = s.fbValid := rfl
@[simp] theorem State.endWith_fb (o : CmdOutcome) : (s.endWith o).fb = s.fb := rfl
@[simp] theorem State.endWith_hdrExt (o : CmdOutcome) : (s.endWith o).hdrExt = s.hdrExt := rfl
@[simp] theorem State.endWith_resultRtr (o : CmdOutcome) : (s.endWith o).resultRtr = s.resultRtr := rfl
@[simp] theorem State.endWith_outCount (o : CmdOutcome) : (s.endWith o).outCount = s.outCount := rfl
@[simp] theorem State.endWith_transportCode (o : CmdOutcome) : (s.endWith o).transportCode = transportCodeOf o := rfl
@[simp] theorem State.endWith_pin (o : CmdOutcome) : (s.endWith o).pin = s.pin := rfl
@[simp] theorem State.endWith_pout (o : CmdOutcome) : (s.endWith o).pout = s.pout := rfl
@[simp] theorem State.endWith_transport (o : CmdOutcome) : (s.endWith o).transport = s.transport := rfl
@[simp] theorem State.endWith_host (o : CmdOutcome) : (s.endWith o).host = s.host := rfl
@[simp] theorem State.endWith_draws (o : CmdOutcome) : (s.endWith o).draws = s.draws := rfl
@[simp] theorem State.endWith_record (o : CmdOutcome) : (s.endWith o).record = o :: s.record := rfl

/-! callSetExtendedHeader -/

@[simp] theorem State.callSetExtendedHeader_status : s.callSetExtendedHeader.status = s.status := rfl
@[simp] theorem State.callSetExtendedHeader_arbId : s.callSetExtendedHeader.arbId = s.arbId := rfl
@[simp] theorem State.callSetExtendedHeader_payloadLen : s.callSetExtendedHeader.payloadLen = s.payloadLen := rfl
@[simp] theorem State.callSetExtendedHeader_fbValid : s.callSetExtendedHeader.fbValid = s.fbValid := rfl
@[simp] theorem State.callSetExtendedHeader_fb : s.callSetExtendedHeader.fb = s.fb := rfl
@[simp] theorem State.callSetExtendedHeader_hdrExt : s.callSetExtendedHeader.hdrExt = s.hdrExt := rfl
@[simp] theorem State.callSetExtendedHeader_resultRtr : s.callSetExtendedHeader.resultRtr = s.resultRtr := rfl
@[simp] theorem State.callSetExtendedHeader_outCount : s.callSetExtendedHeader.outCount = s.outCount := rfl
@[simp] theorem State.callSetExtendedHeader_transportCode : s.callSetExtendedHeader.transportCode = s.transportCode := rfl
@[simp] theorem State.callSetExtendedHeader_pin : s.callSetExtendedHeader.pin = s.pin := rfl
@[simp] theorem State.callSetExtendedHeader_pout : s.callSetExtendedHeader.pout = s.pout := rfl
@[simp] theorem State.callSetExtendedHeader_transport_calls : s.callSetExtendedHeader.transport.calls = .setExtendedHeader :: s.transport.calls := rfl
@[simp] theorem State.callSetExtendedHeader_transport_headerAnswers : s.callSetExtendedHeader.transport.headerAnswers = s.transport.headerAnswers.tail := rfl
@[simp] theorem State.callSetExtendedHeader_transport_sendAnswers : s.callSetExtendedHeader.transport.sendAnswers = s.transport.sendAnswers := rfl
@[simp] theorem State.callSetExtendedHeader_transport_rxAnswers : s.callSetExtendedHeader.transport.rxAnswers = s.transport.rxAnswers := rfl
@[simp] theorem State.callSetExtendedHeader_host : s.callSetExtendedHeader.host = s.host := rfl
@[simp] theorem State.callSetExtendedHeader_draws : s.callSetExtendedHeader.draws = s.draws + 1 := rfl
@[simp] theorem State.callSetExtendedHeader_record : s.callSetExtendedHeader.record = s.record := rfl

/-! callSend -/

@[simp] theorem State.callSend_status (fs : List Frame) : (s.callSend fs).status = s.status := rfl
@[simp] theorem State.callSend_arbId (fs : List Frame) : (s.callSend fs).arbId = s.arbId := rfl
@[simp] theorem State.callSend_payloadLen (fs : List Frame) : (s.callSend fs).payloadLen = s.payloadLen := rfl
@[simp] theorem State.callSend_fbValid (fs : List Frame) : (s.callSend fs).fbValid = s.fbValid := rfl
@[simp] theorem State.callSend_fb (fs : List Frame) : (s.callSend fs).fb = s.fb := rfl
@[simp] theorem State.callSend_hdrExt (fs : List Frame) : (s.callSend fs).hdrExt = s.hdrExt := rfl
@[simp] theorem State.callSend_resultRtr (fs : List Frame) : (s.callSend fs).resultRtr = s.resultRtr := rfl
@[simp] theorem State.callSend_outCount (fs : List Frame) : (s.callSend fs).outCount = s.outCount := rfl
@[simp] theorem State.callSend_transportCode (fs : List Frame) : (s.callSend fs).transportCode = s.transportCode := rfl
@[simp] theorem State.callSend_pin (fs : List Frame) : (s.callSend fs).pin = s.pin := rfl
@[simp] theorem State.callSend_pout (fs : List Frame) : (s.callSend fs).pout = s.pout := rfl
@[simp] theorem State.callSend_transport_calls (fs : List Frame) : (s.callSend fs).transport.calls = .send fs :: s.transport.calls := rfl
@[simp] theorem State.callSend_transport_headerAnswers (fs : List Frame) : (s.callSend fs).transport.headerAnswers = s.transport.headerAnswers := rfl
@[simp] theorem State.callSend_transport_sendAnswers (fs : List Frame) : (s.callSend fs).transport.sendAnswers = s.transport.sendAnswers.tail := rfl
@[simp] theorem State.callSend_transport_rxAnswers (fs : List Frame) : (s.callSend fs).transport.rxAnswers = s.transport.rxAnswers := rfl
@[simp] theorem State.callSend_host (fs : List Frame) : (s.callSend fs).host = s.host := rfl
@[simp] theorem State.callSend_draws (fs : List Frame) : (s.callSend fs).draws = s.draws + 1 := rfl
@[simp] theorem State.callSend_record (fs : List Frame) : (s.callSend fs).record = s.record := rfl

/-! callReceive -/

@[simp] theorem State.callReceive_status : s.callReceive.status = s.status := rfl
@[simp] theorem State.callReceive_arbId : s.callReceive.arbId = s.arbId := rfl
@[simp] theorem State.callReceive_payloadLen : s.callReceive.payloadLen = s.payloadLen := rfl
@[simp] theorem State.callReceive_fbValid : s.callReceive.fbValid = s.fbValid := rfl
@[simp] theorem State.callReceive_fb : s.callReceive.fb = s.fb := rfl
@[simp] theorem State.callReceive_hdrExt : s.callReceive.hdrExt = s.hdrExt := rfl
@[simp] theorem State.callReceive_resultRtr : s.callReceive.resultRtr = s.resultRtr := rfl
@[simp] theorem State.callReceive_outCount : s.callReceive.outCount = s.outCount := rfl
@[simp] theorem State.callReceive_transportCode : s.callReceive.transportCode = s.transportCode := rfl
@[simp] theorem State.callReceive_pin : s.callReceive.pin = s.pin := rfl
@[simp] theorem State.callReceive_pout : s.callReceive.pout = s.pout := rfl
@[simp] theorem State.callReceive_transport_calls : s.callReceive.transport.calls = .receive Config.rxMaxFrames :: s.transport.calls := rfl
@[simp] theorem State.callReceive_transport_headerAnswers : s.callReceive.transport.headerAnswers = s.transport.headerAnswers := rfl
@[simp] theorem State.callReceive_transport_sendAnswers : s.callReceive.transport.sendAnswers = s.transport.sendAnswers := rfl
@[simp] theorem State.callReceive_transport_rxAnswers : s.callReceive.transport.rxAnswers = s.transport.rxAnswers.tail := rfl
@[simp] theorem State.callReceive_host : s.callReceive.host = s.host := rfl
@[simp] theorem State.callReceive_draws : s.callReceive.draws = s.draws + 1 := rfl
@[simp] theorem State.callReceive_record : s.callReceive.record = s.record := rfl

/-! resetBlock -/

@[simp] theorem State.resetBlock_status : s.resetBlock.status = State.reset.status := rfl
@[simp] theorem State.resetBlock_arbId : s.resetBlock.arbId = State.reset.arbId := rfl
@[simp] theorem State.resetBlock_payloadLen : s.resetBlock.payloadLen = State.reset.payloadLen := rfl
@[simp] theorem State.resetBlock_fbValid : s.resetBlock.fbValid = State.reset.fbValid := rfl
@[simp] theorem State.resetBlock_fb : s.resetBlock.fb = State.reset.fb := rfl
@[simp] theorem State.resetBlock_hdrExt : s.resetBlock.hdrExt = State.reset.hdrExt := rfl
@[simp] theorem State.resetBlock_resultRtr : s.resetBlock.resultRtr = State.reset.resultRtr := rfl
@[simp] theorem State.resetBlock_outCount : s.resetBlock.outCount = State.reset.outCount := rfl
@[simp] theorem State.resetBlock_transportCode : s.resetBlock.transportCode = State.reset.transportCode := rfl
@[simp] theorem State.resetBlock_pin : s.resetBlock.pin = State.reset.pin := rfl
@[simp] theorem State.resetBlock_pout : s.resetBlock.pout = State.reset.pout := rfl
@[simp] theorem State.resetBlock_transport : s.resetBlock.transport = s.transport := rfl
@[simp] theorem State.resetBlock_host : s.resetBlock.host = s.host := rfl
@[simp] theorem State.resetBlock_draws : s.resetBlock.draws = s.draws := rfl
@[simp] theorem State.resetBlock_record : s.resetBlock.record = s.record := rfl

/-! advance -/

@[simp] theorem State.advance_status : s.advance.status = s.status := rfl
@[simp] theorem State.advance_arbId : s.advance.arbId = s.arbId := rfl
@[simp] theorem State.advance_payloadLen : s.advance.payloadLen = s.payloadLen := rfl
@[simp] theorem State.advance_fbValid : s.advance.fbValid = s.fbValid := rfl
@[simp] theorem State.advance_fb : s.advance.fb = s.fb := rfl
@[simp] theorem State.advance_hdrExt : s.advance.hdrExt = s.hdrExt := rfl
@[simp] theorem State.advance_resultRtr : s.advance.resultRtr = s.resultRtr := rfl
@[simp] theorem State.advance_outCount : s.advance.outCount = s.outCount := rfl
@[simp] theorem State.advance_transportCode : s.advance.transportCode = s.transportCode := rfl
@[simp] theorem State.advance_pin : s.advance.pin = s.pin := rfl
@[simp] theorem State.advance_pout : s.advance.pout = s.pout := rfl
@[simp] theorem State.advance_transport : s.advance.transport = s.transport := rfl
@[simp] theorem State.advance_host_program : s.advance.host.program = s.host.program := rfl
@[simp] theorem State.advance_host_pos : s.advance.host.pos = s.host.pos + 1 := rfl
@[simp] theorem State.advance_host_temps : s.advance.host.temps = s.host.temps := rfl
@[simp] theorem State.advance_draws : s.advance.draws = s.draws := rfl
@[simp] theorem State.advance_record : s.advance.record = s.record := rfl

/-! goTo -/

@[simp] theorem State.goTo_status (n : Nat) : (s.goTo n).status = s.status := rfl
@[simp] theorem State.goTo_arbId (n : Nat) : (s.goTo n).arbId = s.arbId := rfl
@[simp] theorem State.goTo_payloadLen (n : Nat) : (s.goTo n).payloadLen = s.payloadLen := rfl
@[simp] theorem State.goTo_fbValid (n : Nat) : (s.goTo n).fbValid = s.fbValid := rfl
@[simp] theorem State.goTo_fb (n : Nat) : (s.goTo n).fb = s.fb := rfl
@[simp] theorem State.goTo_hdrExt (n : Nat) : (s.goTo n).hdrExt = s.hdrExt := rfl
@[simp] theorem State.goTo_resultRtr (n : Nat) : (s.goTo n).resultRtr = s.resultRtr := rfl
@[simp] theorem State.goTo_outCount (n : Nat) : (s.goTo n).outCount = s.outCount := rfl
@[simp] theorem State.goTo_transportCode (n : Nat) : (s.goTo n).transportCode = s.transportCode := rfl
@[simp] theorem State.goTo_pin (n : Nat) : (s.goTo n).pin = s.pin := rfl
@[simp] theorem State.goTo_pout (n : Nat) : (s.goTo n).pout = s.pout := rfl
@[simp] theorem State.goTo_transport (n : Nat) : (s.goTo n).transport = s.transport := rfl
@[simp] theorem State.goTo_host_program (n : Nat) : (s.goTo n).host.program = s.host.program := rfl
@[simp] theorem State.goTo_host_pos (n : Nat) : (s.goTo n).host.pos = n := rfl
@[simp] theorem State.goTo_host_temps (n : Nat) : (s.goTo n).host.temps = s.host.temps := rfl
@[simp] theorem State.goTo_draws (n : Nat) : (s.goTo n).draws = s.draws := rfl
@[simp] theorem State.goTo_record (n : Nat) : (s.goTo n).record = s.record := rfl

/-! setTemp -/

@[simp] theorem State.setTemp_status (x : Temp) (w : Word) : (s.setTemp x w).status = s.status := rfl
@[simp] theorem State.setTemp_arbId (x : Temp) (w : Word) : (s.setTemp x w).arbId = s.arbId := rfl
@[simp] theorem State.setTemp_payloadLen (x : Temp) (w : Word) : (s.setTemp x w).payloadLen = s.payloadLen := rfl
@[simp] theorem State.setTemp_fbValid (x : Temp) (w : Word) : (s.setTemp x w).fbValid = s.fbValid := rfl
@[simp] theorem State.setTemp_fb (x : Temp) (w : Word) : (s.setTemp x w).fb = s.fb := rfl
@[simp] theorem State.setTemp_hdrExt (x : Temp) (w : Word) : (s.setTemp x w).hdrExt = s.hdrExt := rfl
@[simp] theorem State.setTemp_resultRtr (x : Temp) (w : Word) : (s.setTemp x w).resultRtr = s.resultRtr := rfl
@[simp] theorem State.setTemp_outCount (x : Temp) (w : Word) : (s.setTemp x w).outCount = s.outCount := rfl
@[simp] theorem State.setTemp_transportCode (x : Temp) (w : Word) : (s.setTemp x w).transportCode = s.transportCode := rfl
@[simp] theorem State.setTemp_pin (x : Temp) (w : Word) : (s.setTemp x w).pin = s.pin := rfl
@[simp] theorem State.setTemp_pout (x : Temp) (w : Word) : (s.setTemp x w).pout = s.pout := rfl
@[simp] theorem State.setTemp_transport (x : Temp) (w : Word) : (s.setTemp x w).transport = s.transport := rfl
@[simp] theorem State.setTemp_host_program (x : Temp) (w : Word) : (s.setTemp x w).host.program = s.host.program := rfl
@[simp] theorem State.setTemp_host_pos (x : Temp) (w : Word) : (s.setTemp x w).host.pos = s.host.pos := rfl
@[simp] theorem State.setTemp_host_temps (x : Temp) (w : Word) : (s.setTemp x w).host.temps = writeTemp s.host.temps x w := rfl
@[simp] theorem State.setTemp_draws (x : Temp) (w : Word) : (s.setTemp x w).draws = s.draws := rfl
@[simp] theorem State.setTemp_record (x : Temp) (w : Word) : (s.setTemp x w).record = s.record := rfl

end Sys2Proof.Machine
end

