-- ==== Sys2Proof/Laws/Exec.lean ====
section
/-! SUPPORT. What each command can do, said once: if it answers `next t`, then one of these cases holds. Every
invariant and frame is a case analysis over them. -/

namespace Sys2Proof.Machine

variable {s t : State}

theorem execEncode_next {r : Bool} (h : execEncode r s = .next t) :
    (idLegal s.hdrExt s.arbId = false ∧ t = s.endWith (.precondFault .illegalId)) ∨
    (idLegal s.hdrExt s.arbId = true ∧ r = true ∧ t = (s.replaceFB (rtrBatch s)).endWith .ok) ∨
    (idLegal s.hdrExt s.arbId = true ∧ r = false ∧ s.payloadLength ≤ 200 ∧
      ∃ b : Batch, b.frames = dataFrames s ∧ t = (s.drawn.replaceFB b).endWith .ok) ∨
    (idLegal s.hdrExt s.arbId = true ∧ r = false ∧ 200 < s.payloadLength ∧ t = s.invalidateFB.endWith .aborted) := by
  unfold execEncode at h
  split at h
  · next hl => cases h; exact .inl ⟨hl, rfl⟩
  next hl =>
    simp only [Bool.not_eq_false] at hl
    split at h
    · next hr => cases h; exact .inr (.inl ⟨hl, hr, rfl⟩)
    next hr =>
      simp only [Bool.not_eq_true] at hr
      split at h
      · next hn =>
        cases h
        exact .inr (.inr (.inl ⟨hl, hr, (frameCount_le_iff _).1 hn, ⟨dataFrames s, by simpa using hn⟩, rfl, rfl⟩))
      · next hn =>
        cases h
        exact .inr (.inr (.inr ⟨hl, hr, Nat.lt_of_not_le fun hc => hn ((frameCount_le_iff _).2 hc), rfl⟩))

theorem execDecodeRtr_next {k : Nat} (h : execDecodeRtr k s = .next t) :
    (s.fbValid = false ∧ t = s.endWith (.precondFault .noValidBuffer)) ∨
    (s.fbValid = true ∧ s.fb.frames.length ≤ k ∧ t = s.endWith (.precondFault .indexRange)) ∨
    (s.fbValid = true ∧ ∃ f, s.fb.frames[k]? = some f ∧
      t = (s.setResult (dlcIsRtr f.dlc)).endWith .ok) := by
  unfold execDecodeRtr at h
  split at h
  · next hv => cases h; exact .inl ⟨hv, rfl⟩
  next hv =>
    simp only [Bool.not_eq_false] at hv
    split at h
    · next hk => cases h; exact .inr (.inl ⟨hv, List.getElem?_eq_none_iff.1 hk, rfl⟩)
    · next f hk => cases h; exact .inr (.inr ⟨hv, f, hk, rfl⟩)

theorem execExtractPayload_next (h : execExtractPayload s = .next t) :
    (s.fbValid = false ∧ t = s.endWith (.precondFault .noValidBuffer)) ∨
    (s.fbValid = true ∧ allWellFormed s.fb.frames = false ∧ t = s.endWith (.precondFault .malformedDlc)) ∨
    (s.fbValid = true ∧ allWellFormed s.fb.frames = true ∧ t = (s.setExtracted (batchBytes s.fb.frames)).endWith .ok) := by
  unfold execExtractPayload at h
  split at h
  · next hv => cases h; exact .inl ⟨hv, rfl⟩
  next hv =>
    simp only [Bool.not_eq_false] at hv
    split at h
    · next hw => cases h; exact .inr (.inl ⟨hv, hw, rfl⟩)
    · next hw => cases h; exact .inr (.inr ⟨hv, by simpa using hw, rfl⟩)

theorem execSetExtHeader_next (h : execSetExtHeader s = .next t) :
    (s.headerAnswer = .ok ∧ t = s.callSetExtendedHeader.setExtended.endWith .ok) ∨
    (∃ code, s.headerAnswer = .err code ∧ t = s.callSetExtendedHeader.endWith (.transportError code)) := by
  unfold execSetExtHeader at h
  split at h
  · next ha => cases h; exact .inl ⟨ha, rfl⟩
  · next code ha => cases h; exact .inr ⟨code, ha, rfl⟩

theorem execSend_next (h : execSend s = .next t) :
    (s.fbValid = false ∧ t = s.endWith (.precondFault .noValidBuffer)) ∨
    (s.fbValid = true ∧ s.sendAnswer = .ok ∧ t = (s.callSend s.fb.frames).endWith .ok) ∨
    (s.fbValid = true ∧ ∃ code, s.sendAnswer = .err code ∧
      t = (s.callSend s.fb.frames).endWith (.transportError code)) := by
  unfold execSend at h
  split at h
  · next hv => cases h; exact .inl ⟨hv, rfl⟩
  next hv =>
    simp only [Bool.not_eq_false] at hv
    split at h
    · next ha => cases h; exact .inr (.inl ⟨hv, ha, rfl⟩)
    · next code ha => cases h; exact .inr (.inr ⟨hv, code, ha, rfl⟩)

theorem execReceive_next (h : execReceive s = .next t) :
    (∃ b, s.rxAnswer = .ok b ∧ t = (s.callReceive.replaceFB b).endWith .ok) ∨
    (∃ code, s.rxAnswer = .err code ∧ t = s.callReceive.invalidateFB.endWith (.transportError code)) := by
  unfold execReceive at h
  split at h
  · next b ha => cases h; exact .inl ⟨b, ha, rfl⟩
  · next code ha => cases h; exact .inr ⟨code, ha, rfl⟩

/-! Every command answers a next state, and which, from the state alone. -/

theorem exec_total (i : Instr) (s : State) : ∃ t, exec i s = .next t := by
  cases i <;> simp only [exec]
  · unfold execEncode; split_ifs <;> exact ⟨_, rfl⟩
  · unfold execDecodeRtr
    split_ifs
    · exact ⟨_, rfl⟩
    · split <;> exact ⟨_, rfl⟩
  · unfold execExtractPayload; split_ifs <;> exact ⟨_, rfl⟩
  · exact ⟨_, rfl⟩
  · unfold execSend; split_ifs <;> exact ⟨_, rfl⟩
  · exact ⟨_, rfl⟩

/-- ENCODE on the RTR path. -/
theorem execEncode_rtr (h : idLegal s.hdrExt s.arbId = true) :
    execEncode true s = .next ((s.replaceFB (rtrBatch s)).endWith .ok) := by simp [execEncode, h]

/-- ENCODE on the data path, within the capacity. -/
theorem execEncode_data (h : idLegal s.hdrExt s.arbId = true) (hn : s.payloadLength ≤ 200) :
    ∃ b : Batch, b.frames = dataFrames s ∧ execEncode false s = .next ((s.drawn.replaceFB b).endWith .ok) := by
  obtain ⟨t, ht⟩ := exec_total (.encode false) s
  rcases execEncode_next ht with ⟨h', _⟩ | ⟨_, h', _⟩ | ⟨_, _, _, b, hb, rfl⟩ | ⟨_, _, h', _⟩
  · simp [h] at h'
  · cases h'
  · exact ⟨b, hb, ht⟩
  · omega

/-- ENCODE on the data path, above the capacity. -/
theorem execEncode_abort (h : idLegal s.hdrExt s.arbId = true) (hn : 200 < s.payloadLength) :
    execEncode false s = .next (s.invalidateFB.endWith .aborted) := by
  obtain ⟨t, ht⟩ := exec_total (.encode false) s
  rcases execEncode_next ht with ⟨h', _⟩ | ⟨_, h', _⟩ | ⟨_, _, h', _⟩ | ⟨_, _, _, rfl⟩
  · simp [h] at h'
  · cases h'
  · omega
  · exact ht

/-- DECODE_RTR of a valid slot. -/
theorem execDecodeRtr_valid {k : Nat} {f : Frame} (hv : s.fbValid = true) (hf : s.fb.frames[k]? = some f) :
    execDecodeRtr k s = .next ((s.setResult (dlcIsRtr f.dlc)).endWith .ok) := by simp [execDecodeRtr, hv, hf]

/-- EXTRACT_PAYLOAD of a well-formed batch. -/
theorem execExtractPayload_valid (hv : s.fbValid = true) (hw : allWellFormed s.fb.frames = true) :
    execExtractPayload s = .next ((s.setExtracted (batchBytes s.fb.frames)).endWith .ok) := by
  simp [execExtractPayload, hv, hw]

/-- Every command ends exactly once, and neither the host nor the operand registers nor PIN is touched before it
does. -/
theorem exec_ends {i : Instr} (h : exec i s = .next t) :
    ∃ (o : CmdOutcome) (u : State), t = u.endWith o ∧ u.record = s.record ∧ u.host = s.host ∧
      u.arbId = s.arbId ∧ u.payloadLen = s.payloadLen ∧ u.pin = s.pin := by
  cases i with
  | encode r =>
    rcases execEncode_next h with ⟨_, rfl⟩ | ⟨_, _, rfl⟩ | ⟨_, _, _, _, _, rfl⟩ | ⟨_, _, _, rfl⟩ <;>
      exact ⟨_, _, rfl, rfl, rfl, rfl, rfl, rfl⟩
  | decodeRtr k =>
    rcases execDecodeRtr_next h with ⟨_, rfl⟩ | ⟨_, _, rfl⟩ | ⟨_, _, _, rfl⟩ <;>
      exact ⟨_, _, rfl, rfl, rfl, rfl, rfl, rfl⟩
  | extractPayload =>
    rcases execExtractPayload_next h with ⟨_, rfl⟩ | ⟨_, _, rfl⟩ | ⟨_, _, rfl⟩ <;>
      exact ⟨_, _, rfl, rfl, rfl, rfl, rfl, rfl⟩
  | setExtHeader =>
    rcases execSetExtHeader_next h with ⟨_, rfl⟩ | ⟨_, _, rfl⟩ <;> exact ⟨_, _, rfl, rfl, rfl, rfl, rfl, rfl⟩
  | send =>
    rcases execSend_next h with ⟨_, rfl⟩ | ⟨_, _, rfl⟩ | ⟨_, _, _, rfl⟩ <;>
      exact ⟨_, _, rfl, rfl, rfl, rfl, rfl, rfl⟩
  | receive =>
    rcases execReceive_next h with ⟨_, _, rfl⟩ | ⟨_, _, rfl⟩ <;> exact ⟨_, _, rfl, rfl, rfl, rfl, rfl, rfl⟩

end Sys2Proof.Machine
end

