-- ==== Sys2Proof/Laws/HostPort.lean ====
section
/-! SUPPORT. The window's map, the words of the registers and lanes, the host's lines, and what one step can do. -/

namespace Sys2Proof.Machine

variable {s t : State}

/-! The words of the registers. -/

theorem statusWord_toNat (st : StatusReg) : (statusWord st).toNat = st.code.toNat + 2 ^ 8 * st.cause.toNat := by
  have h1 := st.code.isLt
  have h2 := st.cause.isLt
  simp only [statusWord, BitVec.toNat_or, BitVec.toNat_shiftLeft, BitVec.toNat_setWidth, Nat.shiftLeft_eq]
  rw [Nat.mod_eq_of_lt (a := st.code.toNat) (by omega), Nat.mod_eq_of_lt (a := st.cause.toNat) (by omega),
    Nat.mod_eq_of_lt (by omega), Nat.mul_comm, ← Nat.two_pow_add_eq_or_of_lt (by omega)]
  omega

theorem fbInfoWord_toNat (v : Bool) {n : Nat} (h : n < 32) : (fbInfoWord v n).toNat = n + 2 ^ 8 * v.toNat := by
  have hv : v.toNat ≤ 1 := by cases v <;> simp
  simp only [fbInfoWord, BitVec.toNat_or, BitVec.toNat_shiftLeft, BitVec.toNat_setWidth, Nat.shiftLeft_eq,
    BitVec.toNat_ofBool, BitVec.toNat_ofNat]
  rw [Nat.mod_eq_of_lt (a := n) (by omega), Nat.mod_eq_of_lt (a := n) (by omega),
    Nat.mod_eq_of_lt (a := v.toNat) (by omega), Nat.mod_eq_of_lt (by omega), Nat.mul_comm,
    ← Nat.two_pow_add_eq_or_of_lt (by omega)]
  omega

theorem flagWord_toNat (b : Bool) : (flagWord b).toNat = b.toNat := by cases b <;> decide

/-! The lanes of a host word (R65). -/

theorem laneOf_eq (w : Word) (b : Nat) : laneOf w b = BitVec.ofNat 8 (w.toNat / 2 ^ (8 * b)) := by
  apply BitVec.eq_of_toNat_eq
  simp [laneOf, Nat.shiftRight_eq_div_pow]

theorem length_lanes (w : Word) : (lanes w).length = 4 := rfl

theorem getLsbD_wordOfLanes (b0 b1 b2 b3 : Byte) (i : Nat) : (wordOfLanes b0 b1 b2 b3).getLsbD i =
    if i < 8 then b0.getLsbD i else if i < 16 then b1.getLsbD (i - 8)
    else if i < 24 then b2.getLsbD (i - 16) else b3.getLsbD (i - 24) := by
  have e : wordOfLanes b0 b1 b2 b3 = ((b3 ++ b2 : BitVec 16) ++ b1 : BitVec 24) ++ b0 := rfl
  rw [e, @BitVec.getLsbD_append 24 8, @BitVec.getLsbD_append 16 8, @BitVec.getLsbD_append 8 8]
  by_cases h : i < 8
  · simp [h]
  by_cases h2 : i < 16
  · simp [h, h2, show i - 8 < 8 by omega]
  by_cases h3 : i < 24
  · simp [h, h2, h3, show ¬ i - 8 < 8 by omega, show i - 8 - 8 = i - 16 by omega, show i - 16 < 8 by omega]
  · simp [h, h2, h3, show ¬ i - 8 < 8 by omega, show ¬ i - 8 - 8 < 8 by omega, show i - 8 - 8 - 8 = i - 24 by omega]

/-- Lane `b` of a word made of four bytes is byte `b`. -/
theorem lane_wordOfLanes (b0 b1 b2 b3 : Byte) {b : Nat} (hb : b < 4) :
    some ((wordOfLanes b0 b1 b2 b3).extractLsb' (8 * b) 8) = [b0, b1, b2, b3][b]? := by
  have key : ∀ v : Byte, (∀ i, i < 8 → (wordOfLanes b0 b1 b2 b3).getLsbD (8 * b + i) = v.getLsbD i) →
      (wordOfLanes b0 b1 b2 b3).extractLsb' (8 * b) 8 = v := by
    intro v hv
    ext i hi
    rw [BitVec.getElem_extractLsb', hv i hi, BitVec.getLsbD_eq_getElem hi]
  match b, hb with
  | 0, _ => exact congrArg some (key b0 fun i hi => by rw [getLsbD_wordOfLanes, if_pos (by omega)]; congr 1; omega)
  | 1, _ => exact congrArg some (key b1 fun i hi => by
      rw [getLsbD_wordOfLanes, if_neg (by omega), if_pos (by omega)]; congr 1; omega)
  | 2, _ => exact congrArg some (key b2 fun i hi => by
      rw [getLsbD_wordOfLanes, if_neg (by omega), if_neg (by omega), if_pos (by omega)]; congr 1; omega)
  | 3, _ => exact congrArg some (key b3 fun i hi => by
      rw [getLsbD_wordOfLanes, if_neg (by omega), if_neg (by omega), if_neg (by omega)]; congr 1; omega)

/-! The window's map (R63). -/

theorem placeOf_pin {i : Nat} (h : i < 200) : placeOf (0x100 + i) = .pin i := by
  rw [placeOf, if_neg (by omega), if_pos (by omega), Nat.add_sub_cancel_left]

theorem placeOf_pout {i : Nat} (h : i < 200) : placeOf (0x200 + i) = .pout i := by
  rw [placeOf, if_neg (by omega), if_neg (by omega), if_neg (by omega), if_pos (by omega), Nat.add_sub_cancel_left]

theorem placeOf_slot {k p : Nat} (hk : k < 25) (hp : p < 4) : placeOf (0x400 + 16 * k + 4 * p) = .slot k p := by
  rw [placeOf, if_neg (by omega), if_neg (by omega), if_neg (by omega), if_neg (by omega), if_neg (by omega),
    if_pos (by omega), show (0x400 + 16 * k + 4 * p - 0x400) / 16 = k by omega,
    show (0x400 + 16 * k + 4 * p - 0x400) % 16 / 4 = p by omega]

/-- The places of the register block, told apart by the offset. -/
theorem registerAt_cases (off : Nat) :
    (registerAt off = .cmd ∧ off = 0x000) ∨ (registerAt off = .status ∧ off = 0x004) ∨
    (registerAt off = .arbId ∧ off = 0x008) ∨ (registerAt off = .payloadLen ∧ off = 0x00C) ∨
    (registerAt off = .fbInfo ∧ off = 0x010) ∨ (registerAt off = .hdrMode ∧ off = 0x014) ∨
    (registerAt off = .result ∧ off = 0x018) ∨ (registerAt off = .outLen ∧ off = 0x01C) ∨
    (registerAt off = .transportCode ∧ off = 0x020) ∨
    (registerAt off = .reserved ∧ off ≠ 0x000 ∧ off ≠ 0x004 ∧ off ≠ 0x008 ∧ off ≠ 0x00C ∧ off ≠ 0x010 ∧
      off ≠ 0x014 ∧ off ≠ 0x018 ∧ off ≠ 0x01C ∧ off ≠ 0x020) := by
  unfold registerAt
  split <;> simp_all

/-- Where each place of the window is. -/
theorem placeOf_cases (off : Nat) :
    (off < 0x100 ∧ placeOf off = registerAt off) ∨
    (0x100 ≤ off ∧ off < 0x1C8 ∧ placeOf off = .pin (off - 0x100)) ∨
    (0x200 ≤ off ∧ off < 0x2C8 ∧ placeOf off = .pout (off - 0x200)) ∨
    (0x400 ≤ off ∧ off < 0x590 ∧ placeOf off = .slot ((off - 0x400) / 16) ((off - 0x400) % 16 / 4)) ∨
    (0x1C8 ≤ off ∧ placeOf off = .reserved ∧ (off < 0x200 ∨ (0x2C8 ≤ off ∧ off < 0x400) ∨ 0x590 ≤ off)) := by
  unfold placeOf
  by_cases h1 : off < 0x100
  · exact .inl ⟨h1, if_pos h1⟩
  rw [if_neg h1]
  by_cases h2 : off < 0x1C8
  · exact .inr (.inl ⟨by omega, h2, if_pos h2⟩)
  rw [if_neg h2]
  by_cases h3 : off < 0x200
  · exact .inr (.inr (.inr (.inr ⟨by omega, if_pos h3, .inl h3⟩)))
  rw [if_neg h3]
  by_cases h4 : off < 0x2C8
  · exact .inr (.inr (.inl ⟨by omega, h4, if_pos h4⟩))
  rw [if_neg h4]
  by_cases h5 : off < 0x400
  · exact .inr (.inr (.inr (.inr ⟨by omega, if_pos h5, .inr (.inl ⟨by omega, h5⟩)⟩)))
  rw [if_neg h5]
  by_cases h6 : off < 0x590
  · exact .inr (.inr (.inr (.inl ⟨by omega, h6, if_pos h6⟩)))
  · exact .inr (.inr (.inr (.inr ⟨by omega, if_neg h6, .inr (.inr (by omega))⟩)))

/-- Which writes do more than nothing: CMD, ARB_ID, PAYLOAD_LEN and PIN (R64). -/
theorem placeOf_written (off : Nat) (ha : off % 4 = 0) :
    (off = 0x000 ∧ placeOf off = .cmd) ∨ (off = 0x008 ∧ placeOf off = .arbId) ∨
    (off = 0x00C ∧ placeOf off = .payloadLen) ∨ (∃ i, i + 4 ≤ 200 ∧ off = 0x100 + i ∧ placeOf off = .pin i) ∨
    (∀ w s, writePlace (placeOf off) w s = .next s) := by
  rcases placeOf_cases off with ⟨_, hp⟩ | ⟨_, _, hp⟩ | ⟨_, _, hp⟩ | ⟨_, _, hp⟩ | ⟨_, hp, _⟩
  · rw [hp]
    rcases registerAt_cases off with ⟨h, ho⟩ | ⟨h, ho⟩ | ⟨h, ho⟩ | ⟨h, ho⟩ | ⟨h, ho⟩ | ⟨h, ho⟩ | ⟨h, ho⟩ | ⟨h, ho⟩ |
      ⟨h, ho⟩ | ⟨h, _⟩ <;> rw [h]
    · exact .inl ⟨ho, rfl⟩
    · exact .inr (.inr (.inr (.inr fun _ _ => rfl)))
    · exact .inr (.inl ⟨ho, rfl⟩)
    · exact .inr (.inr (.inl ⟨ho, rfl⟩))
    all_goals exact .inr (.inr (.inr (.inr fun _ _ => rfl)))
  · exact .inr (.inr (.inr (.inl ⟨off - 0x100, by omega, by omega, hp⟩)))
  all_goals exact .inr (.inr (.inr (.inr fun w s => by rw [hp]; rfl)))

/-! The host's accesses and lines. -/

theorem accessFault_of_admitted {off : Nat} (h : admitted off = true) : accessFault off = none := by
  simp only [admitted, Bool.and_eq_true, decide_eq_true_eq] at h
  rw [accessFault, if_neg (by omega), if_neg (by omega)]

theorem aligned_of_accessFault {off : Nat} (h : accessFault off = none) : off % 4 = 0 := by
  unfold accessFault at h
  by_contra hc
  split_ifs at h

theorem step_of_nextLine {line : HostLine} (h : NextLine s line) : step s = runLine line s := by
  unfold NextLine at h
  rw [step, hostStep, h]

theorem withTemp_of_read {x : Temp} {w : Word} {go : Word → Result} (h : readTemp s.host.temps x = some w) :
    withTemp x s go = go w := by rw [withTemp, h]

theorem withOperand_of {v : Operand} {w : Word} {go : Word → Result} (h : OperandIs s v w) :
    withOperand v s go = go w := by
  rcases h with rfl | ⟨x, rfl, hx⟩
  · rfl
  · exact withTemp_of_read hx

theorem withTemp_next {x : Temp} {go : Word → Result} (h : withTemp x s go = .next t) :
    ∃ w, readTemp s.host.temps x = some w ∧ go w = .next t := by
  unfold withTemp at h
  split at h
  · exact ⟨_, ‹_›, h⟩
  · cases h

theorem withOperand_next {v : Operand} {go : Word → Result} (h : withOperand v s go = .next t) :
    ∃ w, OperandIs s v w ∧ go w = .next t := by
  cases v with
  | const w => exact ⟨w, .inl rfl, h⟩
  | temp x =>
    obtain ⟨w, h1, h2⟩ := withTemp_next h
    exact ⟨w, .inr ⟨x, rfl, h1⟩, h2⟩

theorem branch_next {l : Label} (h : branch l s = .next t) : ∃ n, t = s.goTo n := by
  unfold branch at h
  split at h <;> cases h
  exact ⟨_, rfl⟩

/-- The first line that defines the label, where line `n` alone does. -/
theorem findLabel_of_unique {l : Label} {p : List HostLine} {n k : Nat} (h : p[n]? = some (.label l))
    (hu : ∀ m, p[m]? = some (.label l) → m = n) : findLabel l k p = some (k + n) := by
  induction p generalizing n k with
  | nil => simp at h
  | cons c rest ih =>
    unfold findLabel
    split
    · next hc => rw [← hu 0 (by simp [hc])]; rfl
    · next hc =>
      cases n with
      | zero => exact absurd (by simpa using h) hc
      | succ n =>
        rw [ih (n := n) (by simpa using h) fun m hm => by have := hu (m + 1) (by simpa using hm); omega]
        congr 1; omega

/-- An admitted read puts the place's word into the temporary and changes nothing else but the draw counter. -/
theorem step_read {off : Nat} {x : Temp} (hl : NextLine s (.rd off x)) (ha : admitted off = true) :
    ∃ t, step s = .next t ∧ readTemp t.host.temps x = some (s.readPlace (placeOf off)) ∧
      (∀ y, y ≠ x → readTemp t.host.temps y = readTemp s.host.temps y) ∧
      t.host.pos = s.host.pos + 1 ∧ t.host.program = s.host.program ∧
      t = { s with host := t.host, draws := t.draws } := by
  rw [step_of_nextLine hl, runLine, hostRead, accessFault_of_admitted ha]
  exact ⟨_, rfl, readTemp_writeTemp_same _ _ _, fun y hy => readTemp_writeTemp_other hy, rfl, rfl, rfl⟩

/-- A write at an admitted offset does what its place does. -/
theorem step_write {off : Nat} {v : Operand} {w : Word} (hl : NextLine s (.wr off v)) (hv : OperandIs s v w)
    (ha : admitted off = true) : step s = writePlace (placeOf off) w s.advance := by
  rw [step_of_nextLine hl, runLine, withOperand_of hv, hostWrite, accessFault_of_admitted ha]

/-- What a host write can do when it does not stop. -/
theorem hostWrite_next {off : Nat} {w : Word} (h : hostWrite off w s = .next t) :
    (off = 0x000 ∧ issueCommand w s = .next t) ∨ (off = 0x008 ∧ t = { s with arbId := w.setWidth 29 }) ∨
    (off = 0x00C ∧ t = { s with payloadLen := w }) ∨
    (∃ i, i + 4 ≤ 200 ∧ off = 0x100 + i ∧ t = { s with pin := memWrite s.pin i (lanes w) }) ∨ t = s := by
  unfold hostWrite at h
  split at h
  · cases h
  next hf =>
  rcases placeOf_written off (aligned_of_accessFault hf) with ⟨ho, hp⟩ | ⟨ho, hp⟩ | ⟨ho, hp⟩ | ⟨i, hi, ho, hp⟩ | hp
  · rw [hp] at h; exact .inl ⟨ho, h⟩
  · rw [hp] at h; cases h; exact .inr (.inl ⟨ho, rfl⟩)
  · rw [hp] at h; cases h; exact .inr (.inr (.inl ⟨ho, rfl⟩))
  · rw [hp] at h; cases h; exact .inr (.inr (.inr (.inl ⟨i, hi, ho, rfl⟩)))
  · rw [hp] at h; cases h; exact .inr (.inr (.inr (.inr rfl)))

/-- What one step can do when it does not stop. -/
inductive StepCase (s t : State) : Prop where
  /-- No line left, or HALT. -/
  | idle : t = s → StepCase s t
  /-- A line that changes only the host. -/
  | hostOnly (h : HostSide) : t = { s with host := h } →
      (tempsWf s.host.temps = true → tempsWf h.temps = true) → StepCase s t
  /-- A read of the window. -/
  | windowRead (h : HostSide) : t = { s with host := h, draws := s.draws + 1 } →
      (tempsWf s.host.temps = true → tempsWf h.temps = true) → StepCase s t
  /-- A command. -/
  | command (v : Operand) (w : Word) (i : Instr) : NextLine s (.wr 0x000 v) → OperandIs s v w →
      decode w = .instr i → exec i s.advance = .next t → StepCase s t
  /-- A command word the decoder turns away. -/
  | rejected (c : Cause) : t = s.advance.endWith (.precondFault c) → StepCase s t
  /-- A write of ARB_ID. -/
  | arbId (w : Word) : t = { s.advance with arbId := w.setWidth 29 } → StepCase s t
  /-- A write of PAYLOAD_LEN. -/
  | payloadLen (w : Word) : t = { s.advance with payloadLen := w } → StepCase s t
  /-- A write of a word of PIN. -/
  | pin (i : Nat) (w : Word) : i + 4 ≤ 200 → t = { s.advance with pin := memWrite s.pin i (lanes w) } → StepCase s t
  /-- The platform's reset. -/
  | reset : NextLine s .platformReset → t = s.resetBlock.advance → StepCase s t

theorem step_cases (h : step s = .next t) : StepCase s t := by
  unfold step hostStep at h
  split at h
  swap
  · cases h; exact .idle rfl
  next line hl =>
  cases line with
  | wr off v =>
    rw [runLine] at h
    obtain ⟨w, hw, h⟩ := withOperand_next h
    rcases hostWrite_next h with ⟨rfl, h'⟩ | ⟨_, h'⟩ | ⟨_, h'⟩ | ⟨i, hi, _, h'⟩ | h'
    · unfold issueCommand at h'
      split at h'
      · next i hd => exact .command v w i hl hw hd h'
      · next c hd => cases h'; exact .rejected c rfl
    · exact .arbId w h'
    · exact .payloadLen w h'
    · exact .pin i w hi h'
    · exact .hostOnly _ h' id
  | rd off x =>
    rw [runLine, hostRead] at h
    split at h <;> cases h
    exact .windowRead _ rfl tempsWf_writeTemp
  | mov x v =>
    rw [runLine] at h
    obtain ⟨w, _, h⟩ := withOperand_next h
    cases h; exact .hostOnly _ rfl tempsWf_writeTemp
  | add x u v =>
    rw [runLine] at h
    obtain ⟨a, _, h⟩ := withTemp_next h
    obtain ⟨w, _, h⟩ := withOperand_next h
    cases h; exact .hostOnly _ rfl tempsWf_writeTemp
  | and x u v =>
    rw [runLine] at h
    obtain ⟨a, _, h⟩ := withTemp_next h
    obtain ⟨w, _, h⟩ := withOperand_next h
    cases h; exact .hostOnly _ rfl tempsWf_writeTemp
  | beq x v l =>
    rw [runLine] at h
    obtain ⟨a, _, h⟩ := withTemp_next h
    obtain ⟨w, _, h⟩ := withOperand_next h
    split at h
    · obtain ⟨n, rfl⟩ := branch_next h; exact .hostOnly _ rfl id
    · cases h; exact .hostOnly _ rfl id
  | bne x v l =>
    rw [runLine] at h
    obtain ⟨a, _, h⟩ := withTemp_next h
    obtain ⟨w, _, h⟩ := withOperand_next h
    split at h
    · cases h; exact .hostOnly _ rfl id
    · obtain ⟨n, rfl⟩ := branch_next h; exact .hostOnly _ rfl id
  | label l => cases h; exact .hostOnly _ rfl id
  | halt => cases h; exact .idle rfl
  | oddAccess shape off => cases h
  | platformReset => cases h; exact .reset hl rfl

end Sys2Proof.Machine
end

