-- ==== Sys2Proof/Laws/PerInstr.lean ====
section
/-! SUPPORT. A statement about every command, one lemma a constructor. -/

namespace Sys2Proof

/-- The bits of a command word by its fields (R91). -/
theorem getElem_cmdw (idx : BitVec 5) (r : Bool) (op : BitVec 4) (x : Nat) (hx : x < 32) :
    (cmdw idx r op)[x] = (!decide (x < 16) && idx.getLsbD (x - 16) ||
      !decide (x < 8) && (decide (x - 8 = 0) && r) || op.getLsbD x) := by
  simp [cmdw]

/-- The word of a command has the fixed bits of its row of the opcode table. -/
def Laws.TableRow.Statement (i : Instr) : Prop := WellFormed i → (opRow i).hits (encode i) = true

theorem Laws.TableRow.encode (r : Bool) : Laws.TableRow.Statement (.encode r) := by
  intro _; cases r <;> decide

theorem Laws.TableRow.decodeRtr (k : Nat) : Laws.TableRow.Statement (.decodeRtr k) := by
  intro _
  simp only [OpRow.hits, beq_iff_eq]
  ext x hx
  have hm : ∀ x, x < 32 → ¬ (16 ≤ x ∧ x < 21) → (0xFFE0FFFF#32).getLsbD x = true := by decide
  have hz : ∀ x, x < 32 → (16 ≤ x ∧ x < 21) → (0xFFE0FFFF#32).getLsbD x = false := by decide
  have hp : ∀ x, 16 ≤ x → x < 32 → (0x00000002#32).getLsbD x = false := by decide
  have hl : ∀ x, x < 16 → (0x00000002#32).getLsbD x = (2#4).getLsbD x := by decide
  rw [BitVec.getElem_and, Sys2Proof.encode, getElem_cmdw, opRow, show idxOf (.decodeRtr k) = BitVec.ofNat 5 k from rfl,
    show rOf (.decodeRtr k) = false from rfl, show opOf (.decodeRtr k) = 2#4 from rfl,
    ← BitVec.getLsbD_eq_getElem hx, ← BitVec.getLsbD_eq_getElem hx]
  by_cases h : 16 ≤ x ∧ x < 21
  · rw [hz x hx h, hp x h.1 hx, Bool.and_false]
  · rw [hm x hx h, Bool.and_true]
    by_cases h16 : x < 16
    · rw [hl x h16]; simp [h16]
    · rw [hp x (by omega) hx, BitVec.getLsbD_of_ge (BitVec.ofNat 5 k) _ (by omega),
        BitVec.getLsbD_of_ge (2#4) _ (by omega)]
      simp

theorem Laws.TableRow.extractPayload : Laws.TableRow.Statement .extractPayload := by intro _; decide

theorem Laws.TableRow.setExtHeader : Laws.TableRow.Statement .setExtHeader := by intro _; decide

theorem Laws.TableRow.send : Laws.TableRow.Statement .send := by intro _; decide

theorem Laws.TableRow.receive : Laws.TableRow.Statement .receive := by intro _; decide

end Sys2Proof
end

