-- ==== Sys2Proof/Tests/Slice0.lean ====
section
/-! SUPPORT. Tests with expected values from the spec (its tables and vectors, named at each), and for every statement
a witness that its hypotheses can be met. -/

namespace Sys2Proof.Tests

open Sys2Proof Sys2Proof.Machine

/-! ## Helpers -/

/-- What `f` shows of the next state, where there is one. -/
def seen {α : Type} (r : Result) (f : State → α) : Option α :=
  match r with
  | .next t => some (f t)
  | .fault _ => none
  | .refused _ => none

/-- The fault a step stops with, where it does. -/
def stop (r : Result) : Option Fault :=
  match r with
  | .next _ => none
  | .fault f => some f
  | .refused _ => none

/-- The reset state with a host program, its temporary 0 holding `v`. -/
def withProgram (lines : List HostLine) (v : Word) : State :=
  { State.reset with host := ⟨lines, 0, [(0, v)]⟩ }

/-- STATUS and FB_INFO as the host reads them. -/
def statusAndInfo (t : State) : Word × Word := (t.readPlace .status, t.readPlace .fbInfo)

/-- The frames of W1. -/
def framesW1 : Batch :=
  ⟨[⟨0x100#29, 0x08#8, #v[0x00#8, 0x01#8, 0x02#8, 0x03#8, 0x04#8, 0x05#8, 0x06#8, 0x07#8]⟩,
    ⟨0x100#29, 0x08#8, #v[0x08#8, 0x09#8, 0x0A#8, 0x0B#8, 0x0C#8, 0x0D#8, 0x0E#8, 0x0F#8]⟩,
    ⟨0x100#29, 0x04#8, #v[0x10#8, 0x11#8, 0x12#8, 0x13#8, 0x00#8, 0x00#8, 0x00#8, 0x00#8]⟩], by decide⟩

/-- The start of W1: 20 bytes in PIN, their length and the ID 0x100. -/
def startW1 : State :=
  { State.reset with
    arbId := 0x100#29, payloadLen := 0x14#32
    pin := (List.range 20).map fun i => (i, BitVec.ofNat 8 i) }

/-- After W1, with a host program. -/
def afterW1 (lines : List HostLine) : State :=
  { startW1 with fb := framesW1, fbValid := true, host := ⟨lines, 0, []⟩ }

/-- One frame with the given DLC byte and data. -/
def oneFrame (dlc : Byte) (data : Vector Byte 8) : Batch := ⟨[⟨0x123#29, dlc, data⟩], by simp⟩

/-- The data bytes 11 12 .. 18 of V26. -/
def data8 : Vector Byte 8 := #v[0x11#8, 0x12#8, 0x13#8, 0x14#8, 0x15#8, 0x16#8, 0x17#8, 0x18#8]

/-- The reset state with a valid buffer. -/
def holding (b : Batch) : State := { State.reset with fb := b, fbValid := true }

/-- The reset state with the environment's next answers chosen. -/
def answering (h : List LinkAnswer) (d : List LinkAnswer) (r : List RxAnswer) : State :=
  { State.reset with transport := ⟨[], h, d, r⟩ }

/-- A full buffer: 25 frames of DLC byte 0x18. -/
def fullBatch : Batch := ⟨List.replicate 25 ⟨0x7FF#29, 0x18#8, data8⟩, by decide⟩

/-! ## WellFormed: each check refuses an ill-formed term -/

theorem test_illFormed_index_32 : wellFormed (.decodeRtr 32) = false := by decide
theorem test_wellFormed_index_31 : wellFormed (.decodeRtr 31) = true := by decide
theorem test_illFormed_offset_unaligned : admitted 0x002 = false := by decide
theorem test_illFormed_offset_outside : admitted 0x1000 = false := by decide
theorem test_illFormed_label_twice : programWellFormed [.label 0, .label 0] = false := by decide
theorem test_illFormed_branch_nowhere : programWellFormed [.beq 0 (.const 0#32) 1, .label 0] = false := by decide
theorem test_illFormed_write_unaligned : programWellFormed [.wr 0x101 (.const 0#32)] = false := by decide
theorem test_illFormed_read_outside : programWellFormed [.rd 0x1000 0] = false := by decide
theorem test_illFormed_byte_access : programWellFormed [.oddAccess .byte 0x100] = false := by decide
/-- TRANSMIT as P1 writes it is well formed. -/
theorem test_wellFormed_transmit : programWellFormed (transmit 0 1 ++ [.rd 0x010 1, .halt]) = true := by decide

/-! ## Decoding: words written bit by bit from R91 and R92, and the rows of section 2.5 -/

theorem test_decode_encode_data : decode 0b00000000000_00000_0000000_0_0000_0001#32 = .instr (.encode false) := by decide
theorem test_decode_encode_rtr : decode 0b00000000000_00000_0000000_1_0000_0001#32 = .instr (.encode true) := by decide
theorem test_decode_decodeRtr_0 : decode 0b00000000000_00000_0000000_0_0000_0010#32 = .instr (.decodeRtr 0) := by decide
theorem test_decode_decodeRtr_18 : decode 0b00000000000_10010_0000000_0_0000_0010#32 = .instr (.decodeRtr 18) := by decide
theorem test_decode_extract : decode 0b00000000000_00000_0000000_0_0000_0011#32 = .instr .extractPayload := by decide
theorem test_decode_setExtHeader : decode 0b00000000000_00000_0000000_0_0000_0100#32 = .instr .setExtHeader := by decide
theorem test_decode_send : decode 0b00000000000_00000_0000000_0_0000_0101#32 = .instr .send := by decide
theorem test_decode_receive : decode 0b00000000000_00000_0000000_0_0000_0110#32 = .instr .receive := by decide

/-- V36, V37, V56: reserved operations, whatever the other bits. -/
theorem test_decode_reservedOp :
    [0x00000000#32, 0x00000007#32, 0xFFFFFFFF#32].map decode = List.replicate 3 (.rejected .reservedOp) := by decide

/-- V38 to V41: a field the operation does not use, and a bit of each reserved field. -/
theorem test_decode_reservedField :
    [0x00000103#32, 0x00010001#32, 0x00000011#32, 0x80000002#32, 0x00000201#32, 0x00200001#32].map decode =
      List.replicate 6 (.rejected .reservedField) := by decide

/-- The words of R92 and R102. -/
theorem test_encode_words :
    [encode (.encode false), encode (.encode true), encode (.decodeRtr 1), encode (.decodeRtr 31),
      encode .extractPayload, encode .setExtHeader, encode .send, encode .receive] =
    [0x00000001#32, 0x00000101#32, 0x00010002#32, 0x001F0002#32, 0x3#32, 0x4#32, 0x5#32, 0x6#32] := by decide

/-- No two rows of spec/opcode_table.json overlap: where both masks have a bit, the patterns differ in it. -/
theorem test_rows_disjoint :
    ([opRow (.encode false), opRow (.decodeRtr 0), opRow .extractPayload, opRow .setExtHeader, opRow .send,
      opRow .receive].Pairwise fun a b => a.pattern &&& b.mask ≠ b.pattern &&& a.mask) := by decide

/-- The table's numbering, and a word that is too long to be a command. -/
theorem test_decodeTableWord : [decodeTableWord 32 0x00030002, decodeTableWord 8 0x06, decodeTableWord 32 0x07,
    decodeTableWord 40 0x0100000001] = [some (.decodeRtr 3), some .receive, none, none] := by decide

/-! ## The commands, one step each -/

/-- W1. -/
theorem test_encode_W1 : seen (exec (.encode false) startW1) (fun t => (statusAndInfo t, t.fb)) =
    some ((0x0#32, 0x103#32), framesW1) := by decide

/-- V12: an ID that is illegal in standard mode. -/
theorem test_encode_V12 : seen (exec (.encode false) { State.reset with arbId := 0x800#29, payloadLen := 1#32 })
    statusAndInfo = some (0x302#32, 0x0#32) := by decide

/-- V15, V16, V17, V18: bit 4 of the DLC byte alone decides. -/
theorem test_decodeRtr_V15_to_V18 :
    ([0x20#8, 0xEF#8, 0x10#8, 0x18#8].map fun b => seen (exec (.decodeRtr 0) (holding (oneFrame b data8)))
      fun t => (t.readPlace .status, t.readPlace .result)) =
    [some (0#32, 0#32), some (0#32, 0#32), some (0#32, 1#32), some (0#32, 1#32)] := by decide

/-- V20: an index at the filled length. -/
theorem test_decodeRtr_V20 : seen (exec (.decodeRtr 3) (afterW1 [])) (fun t => t.readPlace .status) =
    some 0x402#32 := by decide

/-- V24: lengths 3, 0 (RTR) and 2. -/
theorem test_extract_V24 :
    seen (exec .extractPayload (holding ⟨[
        ⟨0x123#29, 0x03#8, #v[0xAA#8, 0xBB#8, 0xCC#8, 9#8, 9#8, 9#8, 9#8, 9#8]⟩, ⟨0x123#29, 0x10#8, data8⟩,
        ⟨0x124#29, 0x02#8, #v[0xDD#8, 0xEE#8, 9#8, 9#8, 9#8, 9#8, 9#8, 9#8]⟩], by decide⟩))
      (fun t => (t.readPlace .status, t.readPlace .outLen, t.readPlace (.pout 0), readCell t.pout 4)) =
    some (0#32, 5#32, 0xDDCCBBAA#32, some 0xEE#8) := by decide

/-- V25: a length field of 9. -/
theorem test_extract_V25 :
    seen (exec .extractPayload (holding ⟨[⟨1#29, 0x08#8, data8⟩, ⟨2#29, 0x09#8, data8⟩], by decide⟩))
      (fun t => (t.readPlace .status, t.readPlace .outLen, t.pout)) = some (0x602#32, 0#32, []) := by decide

/-- V30. -/
theorem test_setExtHeader_V30 : seen (exec .setExtHeader (answering [.ok] [] []))
    (fun t => (t.readPlace .status, t.readPlace .hdrMode, t.transport.calls)) =
    some (0#32, 1#32, [.setExtendedHeader]) := by decide

/-- V31. -/
theorem test_setExtHeader_V31 : seen (exec .setExtHeader (answering [.err 0x0000DEAD#32] [] []))
    (fun t => (t.readPlace .status, t.readPlace .transportCode, t.readPlace .hdrMode)) =
    some (3#32, 0x0000DEAD#32, 0#32) := by decide

/-- V32: no valid buffer, no call. -/
theorem test_send_V32 : seen (exec .send State.reset) (fun t => (t.readPlace .status, t.transport.calls)) =
    some (0x502#32, []) := by decide

/-- V33, its first SEND. -/
theorem test_send_V33 : seen (exec .send { afterW1 [] with transport := ⟨[], [], [.err 7#32, .ok], []⟩ })
    (fun t => (statusAndInfo t, t.readPlace .transportCode, t.transport.calls)) =
    some ((3#32, 0x103#32), 7#32, [.send framesW1.frames]) := by decide

/-- V54: RECEIVE replaces the buffer and clears RESULT and OUT_LEN. -/
theorem test_receive_V54 :
    seen (exec .receive { answering [] [] [.ok (oneFrame 0x01#8 data8)] with resultRtr := true, outCount := 3#8 })
      (fun t => (statusAndInfo t, t.readPlace .result, t.readPlace .outLen, t.readPlace (.slot 0 0))) =
    some ((0#32, 0x101#32), 0#32, 0#32, 0x123#32) := by decide

/-- V35: an error leaves no buffer. -/
theorem test_receive_V35 :
    seen (exec .receive { afterW1 [] with outCount := 0x14#8, transport := ⟨[], [], [], [.err 1#32]⟩ })
      (fun t => (statusAndInfo t, t.readPlace .transportCode, t.readPlace .outLen, t.fb.frames)) =
    some ((3#32, 0#32), 1#32, 0#32, []) := by decide

/-! ## The host port and the notation -/

/-- V14: bits [31:29] of ARB_ID are hardwired 0. -/
theorem test_arbId_V14 : seen (step (withProgram [.wr 0x008 (.const 0xFFFFFFFF#32)] 0#32))
    (fun t => t.readPlace .arbId) = some 0x1FFFFFFF#32 := by decide

/-- V45: the words of the frame window after W1, slot 1 and slot 2. -/
theorem test_frameWindow_V45 :
    ([0x410, 0x414, 0x418, 0x41C, 0x424, 0x428].map fun off => seen (step (afterW1 [.rd off 0]))
      fun t => readTemp t.host.temps 0) =
    [some (some 0x100#32), some (some 0x8#32), some (some 0x0B0A0908#32), some (some 0x0F0E0D0C#32),
      some (some 0x4#32), some (some 0x13121110#32)] := by decide

/-- V43: a write of STATUS is ignored. -/
theorem test_status_V43 : seen (step { withProgram [.wr 0x004 (.const 0#32)] 0#32 with status := ⟨2#2, 5#4⟩ })
    (fun t => t.readPlace .status) = some 0x502#32 := by decide

/-- R62: a byte access stops the machine. -/
theorem test_oddAccess : stop (step (withProgram [.oddAccess .byte 0x104] 0#32)) =
    some (.accessNotAdmitted 0x104) := by decide

/-- The map of R63 at the edges of its regions. -/
theorem test_map : [0x020, 0x024, 0x100, 0x1C4, 0x1C8, 0x200, 0x2C4, 0x2C8, 0x400, 0x58C, 0x590].map placeOf =
    [.transportCode, .reserved, .pin 0, .pin 196, .reserved, .pout 0, .pout 196, .reserved, .slot 0 0, .slot 24 3,
      .reserved] := by decide

/-- P1 line 1, with the last word short: R104's expansion of LOAD_PAYLOAD. -/
theorem test_loadPayload : loadPayload [0x00#8, 0x01#8, 0x02#8, 0x03#8, 0x04#8, 0x05#8] =
    [.wr 0x100 (.const 0x03020100#32), .wr 0x104 (.const 0x00000504#32), .wr 0x00C (.const 6#32)] := by decide

/-- P5 line 1: only 200 bytes fit PIN, and the length is the whole of it. -/
theorem test_loadPayload_201 : (loadPayload (List.replicate 201 0xC8#8)).drop 49 =
    [.wr 0x1C4 (.const 0xC8C8C8C8#32), .wr 0x00C (.const 0xC9#32)] := by decide +kernel

/-- P1 lines 2 and 3, P3 line 5: the other expansions of R104. -/
theorem test_pseudo : writeDataFrame (.const 0x100#32) ++ transmit 0 1 ++ checkRtr 0 2 3 =
    [.wr 0x008 (.const 0x100#32), .wr 0x000 (.const 1#32), .rd 0x004 0, .bne 0 (.const 0#32) 1,
      .wr 0x000 (.const 5#32), .label 1, .wr 0x000 (.const 2#32), .rd 0x004 2, .rd 0x018 3] := by decide

/-- A fetched word runs first after reset. -/
theorem test_withFetchWord : seen (step (State.reset.withFetchWord 32 0x00000003)) (fun t => t.readPlace .status) =
    some 0x502#32 := by decide

/-! ## Witnesses: the hypotheses of each statement, met by a concrete state and operands -/

theorem witness_DecodeOfEncodeIsTheCommand : WellFormed (.decodeRtr 31) ∧ WellFormed (.encode true) := by decide

/-- The bounds of the index. -/
theorem witness_WordsOfTheSixCommands : 0 < 32 ∧ 31 < 32 := by decide

theorem witness_AcceptedWordIsTheEncoding :
    decode 0x001F0002#32 = .instr (.decodeRtr 31) ∧ decode 0x00000101#32 = .instr (.encode true) := by decide

theorem witness_DecoderAgreesWithOpcodeTable :
    decode 0x001F0002#32 = .instr (.decodeRtr 31) ∧ (opRow (.decodeRtr 0)).hits 0x001F0002#32 = true ∧
    (opRow (.decodeRtr 7)).hits 0x001F0002#32 = true := by decide

theorem witness_PlatformResetRestoresTheBlock : NextLine (afterW1 [.platformReset]) .platformReset := rfl

/-- A state that meets the invariant and holds a batch, a message and temporaries: V24's frames extracted. -/
def busy : State :=
  { State.reset with
    fb := oneFrame 0x13#8 data8, fbValid := true, resultRtr := true, outCount := 3#8
    pout := [(0, 0x11#8), (1, 0x12#8), (2, 0x13#8), (7, 0x00#8)]
    pin := [(0, 0x55#8), (199, 0x66#8)]
    transport := ⟨[], [.ok], [.err 7#32], [.ok fullBatch]⟩
    host := ⟨[.wr 0x000 (.const 0x00000006#32), .platformReset], 0, [(0, 1#32), (4, 2#32)]⟩ }

theorem busy_inv : busy.Inv where
  status_legal := by decide
  transport_code_zero := by decide
  invalid_empty := by decide
  result_backed := fun _ => ⟨_, List.mem_singleton.2 rfl, by decide⟩
  out_bound := by decide
  out_backed := by decide
  pin_wf := by decide
  pout_wf := by decide
  temps_wf := by decide

theorem witness_EveryStepKeepsInv : busy.Inv ∧ ∃ t, step busy = .next t := ⟨busy_inv, _, rfl⟩

theorem witness_StepRunsTheDecodedCommand :
    NextLine (withProgram [.wr 0x000 (.temp 0)] 0x001F0002#32) (.wr 0x000 (.temp 0)) ∧
    OperandIs (withProgram [.wr 0x000 (.temp 0)] 0x001F0002#32) (.temp 0) 0x001F0002#32 ∧
    decode 0x001F0002#32 = .instr (.decodeRtr 31) := ⟨rfl, .inr ⟨0, rfl, rfl⟩, by decide⟩

/-- Both clauses, at the edges of the reserved operations and with one bit of each kind set. -/
theorem witness_ReservedWordEndsInPrecondFault :
    (∀ w, NextLine (afterW1 [.wr 0x000 (.const w)]) (.wr 0x000 (.const w)) ∧
      OperandIs (afterW1 [.wr 0x000 (.const w)]) (.const w) w) ∧
    (0x00000000#32).toNat % 16 = 0 ∧ 7 ≤ (0x00000007#32).toNat % 16 ∧ 7 ≤ (0x8000000F#32).toNat % 16 ∧
    (1 ≤ (0x00000011#32).toNat % 16 ∧ (0x80000006#32).toNat % 16 ≤ 6) ∧
    ((0x00000102#32).toNat % 16 ≠ 1 ∧ (0x00010001#32).toNat % 16 ≠ 2) ∧
    (0x00000011#32 &&& 0xFFE0FEF0#32) ≠ 0#32 ∧ (0x80000006#32 &&& 0xFFE0FEF0#32) ≠ 0#32 ∧
    (0x00000102#32).getLsbD 8 = true ∧ (0x00010001#32 &&& 0x001F0000#32) ≠ 0#32 :=
  ⟨fun _ => ⟨rfl, .inl rfl⟩, by decide⟩

theorem witness_OperandRegisterWrites :
    OperandIs (withProgram [.wr 0x008 (.temp 0)] 0xFFFFFFFF#32) (.temp 0) 0xFFFFFFFF#32 ∧
    NextLine (withProgram [.wr 0x008 (.temp 0)] 0xFFFFFFFF#32) (.wr 0x008 (.temp 0)) ∧
    OperandIs (withProgram [.wr 0x00C (.temp 0)] 0xFFFFFFFF#32) (.temp 0) 0xFFFFFFFF#32 ∧
    NextLine (withProgram [.wr 0x00C (.temp 0)] 0xFFFFFFFF#32) (.wr 0x00C (.temp 0)) :=
  ⟨.inr ⟨0, rfl, rfl⟩, rfl, .inr ⟨0, rfl, rfl⟩, rfl⟩

theorem witness_PayloadInWindowWrite :
    49 < 50 ∧ OperandIs (withProgram [.wr 0x1C4 (.temp 0)] 0x04030201#32) (.temp 0) 0x04030201#32 ∧
    NextLine (withProgram [.wr 0x1C4 (.temp 0)] 0x04030201#32) (.wr (0x100 + 4 * 49) (.temp 0)) :=
  ⟨by decide, .inr ⟨0, rfl, rfl⟩, rfl⟩

/-- The edges of every reserved range for reads, and of the ignored offsets for writes. -/
theorem witness_ReservedAndReadOnlyAccesses :
    (∀ off ∈ [0x000, 0x024, 0x0FC, 0x1C8, 0x1FC, 0x2C8, 0x3FC, 0x590, 0xFFC],
      admitted off = true ∧ NextLine (withProgram [.rd off 0] 0#32) (.rd off 0) ∧
      (off = 0x000 ∨ (0x024 ≤ off ∧ off ≤ 0x0FF) ∨ (0x1C8 ≤ off ∧ off ≤ 0x1FF) ∨
        (0x2C8 ≤ off ∧ off ≤ 0x3FF) ∨ 0x590 ≤ off)) ∧
    (∀ off ∈ [0x004, 0x010, 0x0FC, 0x1C8, 0x200, 0x400, 0xFFC],
      admitted off = true ∧ NextLine (withProgram [.wr off (.temp 0)] 1#32) (.wr off (.temp 0)) ∧
      OperandIs (withProgram [.wr off (.temp 0)] 1#32) (.temp 0) 1#32 ∧
      off ≠ 0x000 ∧ off ≠ 0x008 ∧ off ≠ 0x00C ∧ (off < 0x100 ∨ 0x1C8 ≤ off)) :=
  ⟨fun off h => ⟨by revert off; decide, rfl, by revert off; decide⟩,
   fun off h => ⟨by revert off; decide, rfl, .inr ⟨0, rfl, rfl⟩, by revert off; decide⟩⟩

theorem witness_ReadsHaveNoSideEffect :
    NextLine (withProgram [.rd 0xFFC 0] 0#32) (.rd 0xFFC 0) ∧ admitted 0xFFC = true := ⟨rfl, by decide⟩

/-- A state whose every register field is at its largest legal value. -/
def loud (lines : List HostLine) : State :=
  { State.reset with
    status := ⟨2#2, 6#4⟩, arbId := 0x1FFFFFFF#29, payloadLen := 0xFFFFFFFF#32, fb := fullBatch, fbValid := true
    hdrExt := true, resultRtr := true, outCount := 200#8, transportCode := 0xFFFFFFFF#32, host := ⟨lines, 0, []⟩ }

/-- Each register offset with the word it reads as, on one state. -/
theorem witness_RegisterReadsReturnTheirFields :
    ∀ p ∈ [(0x004, 0x602#32), (0x008, 0x1FFFFFFF#32), (0x00C, 0xFFFFFFFF#32), (0x010, 0x119#32), (0x014, 1#32),
        (0x018, 1#32), (0x01C, 200#32), (0x020, 0xFFFFFFFF#32)],
      NextLine (loud [.rd p.1 0]) (.rd p.1 0) ∧
      ((p.1 = 0x004 ∧ p.2.toNat = (loud [.rd p.1 0]).status.code.toNat +
          2 ^ 8 * (loud [.rd p.1 0]).status.cause.toNat) ∨
       (p.1 = 0x008 ∧ p.2.toNat = (loud [.rd p.1 0]).arbId.toNat) ∨
       (p.1 = 0x00C ∧ p.2 = (loud [.rd p.1 0]).payloadLen) ∨
       (p.1 = 0x010 ∧ p.2.toNat = (loud [.rd p.1 0]).fb.frames.length + 2 ^ 8 * (loud [.rd p.1 0]).fbValid.toNat) ∨
       (p.1 = 0x014 ∧ p.2.toNat = (loud [.rd p.1 0]).hdrExt.toNat) ∨
       (p.1 = 0x018 ∧ p.2.toNat = (loud [.rd p.1 0]).resultRtr.toNat) ∨
       (p.1 = 0x01C ∧ p.2.toNat = (loud [.rd p.1 0]).outCount.toNat) ∨
       (p.1 = 0x020 ∧ p.2 = (loud [.rd p.1 0]).transportCode)) :=
  fun p h => ⟨rfl, by revert p; decide⟩

/-- The last byte of both windows, each clause met by one state. -/
theorem witness_PayloadWindowsReadTheirBytes :
    49 < 50 ∧ 3 < 4 ∧ ∀ off ∈ [0x100 + 4 * 49, 0x200 + 4 * 49], ∃ s : State,
      NextLine s (.rd off 0) ∧ readCell s.pin (4 * 49 + 3) = some 0x66#8 ∧
      4 * 49 + 3 < s.outCount.toNat ∧ readCell s.pout (4 * 49 + 3) = some 0x66#8 :=
  ⟨by decide, by decide, fun off _ =>
    ⟨{ withProgram [.rd off 0] 0#32 with pin := [(199, 0x66#8)], pout := [(199, 0x66#8)], outCount := 200#8 },
      rfl, rfl, (by decide : 199 < 200), rfl⟩⟩

/-- The last slot of a full buffer, each of its four words, each on one state. -/
theorem witness_FrameWindowReadsTheSlot :
    ∀ p ∈ [0, 4, 8, 12], ∃ s : State, s.fbValid = true ∧ s.fb.frames[24]? = some ⟨0x7FF#29, 0x18#8, data8⟩ ∧
      NextLine s (.rd (0x400 + 16 * 24 + p) 0) :=
  fun p _ => ⟨{ holding fullBatch with host := ⟨[.rd (0x400 + 16 * 24 + p) 0], 0, []⟩ }, rfl, rfl, rfl⟩

theorem witness_NonAdmittedAccessStops :
    0xFFF ≤ 0xFFF ∧ 0xFFF % 4 ≠ 0 ∧ NextLine (withProgram [.rd 0xFFF 0] 0#32) (.rd 0xFFF 0) ∧
    NextLine (withProgram [.wr 0xFFF (.temp 0)] 0#32) (.wr 0xFFF (.temp 0)) ∧
    OperandIs (withProgram [.wr 0xFFF (.temp 0)] 0#32) (.temp 0) 0#32 ∧
    NextLine (withProgram [.oddAccess .burst 0x000] 0#32) (.oddAccess .burst 0x000) :=
  ⟨by decide, by decide, rfl, rfl, .inr ⟨0, rfl, rfl⟩, rfl⟩

theorem witness_HostDataLines :
    (∀ line, OperandIs (withProgram [line] 0xFFFFFFFF#32) (.temp 0) 0xFFFFFFFF#32 ∧
      readTemp (withProgram [line] 0xFFFFFFFF#32).host.temps 0 = some 0xFFFFFFFF#32) ∧
    ∀ line ∈ [HostLine.mov 1 (.temp 0), .add 1 0 (.temp 0), .and 0 0 (.temp 0), .label 3, .halt],
      NextLine (withProgram [line] 0xFFFFFFFF#32) line :=
  ⟨fun _ => ⟨.inr ⟨0, rfl, rfl⟩, rfl⟩, fun _ _ => rfl⟩

theorem witness_HostBranchLines :
    ∀ line ∈ [HostLine.beq 0 (.const 5#32) 9, .bne 0 (.const 5#32) 9],
      NextLine (withProgram [line, .halt, .label 9] 5#32) line ∧
      readTemp (withProgram [line, .halt, .label 9] 5#32).host.temps 0 = some 5#32 ∧
      OperandIs (withProgram [line, .halt, .label 9] 5#32) (.const 5#32) 5#32 ∧
      (withProgram [line, .halt, .label 9] 5#32).host.program[2]? = some (.label 9) ∧
      ∀ m, (withProgram [line, .halt, .label 9] 5#32).host.program[m]? = some (.label 9) → m = 2 := by
  intro line hl
  refine ⟨rfl, rfl, .inl rfl, rfl, fun m hm => ?_⟩
  simp only [List.mem_cons, List.not_mem_nil, or_false] at hl
  match m with
  | 0 => rcases hl with rfl | rfl <;> simp [withProgram] at hm
  | 1 => simp [withProgram] at hm
  | 2 => rfl
  | m + 3 => simp [withProgram] at hm

/-- Temporary 1 is unwritten, temporary 0 written; a line of each clause. -/
theorem witness_UnwrittenTemporaryFaults :
    ∀ line ∈ [HostLine.wr 0x008 (.temp 1), .mov 0 (.temp 1), .add 0 1 (.const 0#32), .and 0 0 (.temp 1),
        .beq 1 (.const 0#32) 2, .bne 0 (.temp 1) 2],
      readTemp (withProgram [line] 5#32).host.temps 1 = none ∧
      readTemp (withProgram [line] 5#32).host.temps 0 = some 5#32 ∧ NextLine (withProgram [line] 5#32) line :=
  fun _ _ => ⟨rfl, rfl, rfl⟩

/-- The start of an ENCODE: the header mode, the ID and the length. -/
def ready (ext : Bool) (id : ArbId) (n : Word) : State :=
  { State.reset with hdrExt := ext, arbId := id, payloadLen := n }

/-- The first illegal ID in standard mode; the largest ID in extended mode. -/
theorem witness_EncodeChecksItsIdFirst :
    ((ready false 0x800#29 0#32).hdrExt = false ∧ 2 ^ 11 ≤ (ready false 0x800#29 0#32).arbId.toNat) ∧
    (ready true 0x1FFFFFFF#29 0#32).hdrExt = true := by decide

/-- The largest legal ID in each mode. -/
theorem witness_EncodeRtrBuildsOneFrame :
    ∀ s ∈ [ready false 0x7FF#29 0#32, ready true 0x1FFFFFFF#29 0#32], idLegal s.hdrExt s.arbId = true := by decide

/-- A length of 0 and one of 200, whose 25th frame is there. -/
theorem witness_EncodeDataBuildsTheFrames :
    (∀ s ∈ [ready false 0x7FF#29 0#32, ready false 0x7FF#29 200#32],
      idLegal s.hdrExt s.arbId = true ∧ s.payloadLen.toNat ≤ 200) ∧
    seen (exec (.encode false) (ready false 0x7FF#29 200#32)) (fun t => t.fb.frames[24]?.isSome) = some true := by
  decide

theorem witness_EncodeAbortsAboveCapacity :
    ∀ s ∈ [ready false 0x7FF#29 201#32, ready false 0x7FF#29 0xFFFFFFFF#32],
      idLegal s.hdrExt s.arbId = true ∧ 200 < s.payloadLen.toNat := by decide

/-- Both paths, each with a frame. -/
theorem witness_EncodeWritesOnlyTheseDlcBytes :
    (∃ t f, exec (.encode false) startW1 = .next t ∧ t.readPlace .status = 0#32 ∧ f ∈ t.fb.frames) ∧
    (∃ t f, exec (.encode true) startW1 = .next t ∧ t.readPlace .status = 0#32 ∧ f ∈ t.fb.frames) :=
  ⟨⟨_, _, rfl, by decide, List.mem_of_getElem? (i := 2) rfl⟩, ⟨_, _, rfl, by decide, List.mem_of_getElem? (i := 0) rfl⟩⟩

theorem witness_DecodeRtrGivesBitFour :
    (holding fullBatch).fbValid = true ∧
    (holding fullBatch).fb.frames[24]? = some ⟨0x7FF#29, 0x18#8, data8⟩ := by decide

theorem witness_DecodeRtrIndexOutOfRange :
    (afterW1 []).fbValid = true ∧ (afterW1 []).fb.frames.length ≤ 3 ∧
    (holding fullBatch).fbValid = true ∧ (holding fullBatch).fb.frames.length ≤ 25 ∧ 25 ≤ 25 := by decide

theorem witness_NoValidBufferFaults :
    State.reset.fbValid = false ∧ ∀ i ∈ [Instr.extractPayload, .send, .decodeRtr 0, .decodeRtr 31],
      i = .extractPayload ∨ i = .send ∨ ∃ k, i = .decodeRtr k := by
  refine ⟨rfl, fun i hi => ?_⟩
  simp only [List.mem_cons, List.not_mem_nil, or_false] at hi
  rcases hi with rfl | rfl | rfl | rfl
  · exact .inl rfl
  · exact .inr (.inl rfl)
  · exact .inr (.inr ⟨_, rfl⟩)
  · exact .inr (.inr ⟨_, rfl⟩)

theorem witness_ExtractConcatenatesTheBatch :
    (holding fullBatch).fbValid = true ∧ ∀ f ∈ (holding fullBatch).fb.frames, f.dlc.toNat % 16 ≤ 8 := by decide

/-- Lengths 9 and 15. -/
theorem witness_ExtractRefusesMalformedLengths :
    ∀ b ∈ [0x09#8, 0xEF#8], (holding (oneFrame b data8)).fbValid = true ∧
      ⟨0x123#29, b, data8⟩ ∈ (holding (oneFrame b data8)).fb.frames ∧ 9 ≤ b.toNat % 16 := by decide

theorem witness_SetExtHeaderFollowsTheTransport :
    (answering [.ok] [] []).headerAnswer = .ok ∧ (answering [.err 0#32] [] []).headerAnswer = .err 0#32 := ⟨rfl, rfl⟩

theorem witness_SendHandsOverTheBatch :
    (holding Batch.empty).fbValid = true ∧ (afterW1 []).fbValid = true ∧
    (answering [] [.ok] []).sendAnswer = .ok ∧ (answering [] [.err 7#32] []).sendAnswer = .err 7#32 :=
  ⟨rfl, rfl, rfl, rfl⟩

/-- An empty delivery and a full one. -/
theorem witness_ReceiveStoresTheBatchAsDelivered :
    (answering [] [] [.ok Batch.empty]).rxAnswer = .ok Batch.empty ∧
    (answering [] [] [.ok fullBatch]).rxAnswer = .ok fullBatch := ⟨rfl, rfl⟩

theorem witness_ReceiveErrorInvalidatesTheBuffer : (answering [] [] [.err 1#32]).rxAnswer = .err 1#32 := rfl

theorem witness_FrameOfTheBufferCommands :
    (∃ t, exec .receive busy = .next t) ∧ ∃ t, exec (.encode false) startW1 = .next t := ⟨⟨_, rfl⟩, ⟨_, rfl⟩⟩

theorem witness_FrameOfTheRegisterCommands :
    (∃ t, exec .send busy = .next t) ∧ (∃ t, exec .setExtHeader busy = .next t) ∧
    ∃ t, exec (.decodeRtr 0) busy = .next t := ⟨⟨_, rfl⟩, ⟨_, rfl⟩, ⟨_, rfl⟩⟩

/-- Ending OK, with a byte beyond the message, and ending in a fault. -/
theorem witness_FrameOfExtractPayload :
    (∃ t, exec .extractPayload busy = .next t ∧ t.readPlace .status = 0#32 ∧
      (batchBytes busy.fb.frames).length ≤ 7) ∧
    ∃ t, exec .extractPayload State.reset = .next t ∧ t.readPlace .status ≠ 0#32 :=
  ⟨⟨_, rfl, by decide, by decide⟩, ⟨_, rfl, by decide⟩⟩

/-- 200 written bytes of PIN. -/
def fullPin : Memory := memWrite [] 0 (List.replicate 200 0x5A#8)

theorem readCell_fullPin {i : Nat} (hi : i < 200) : readCell fullPin i = some 0x5A#8 := by
  have h := readCell_memWrite_inside (m := []) (i := 0) (j := i) (bytes := List.replicate 200 0x5A#8)
    (by rw [List.length_replicate]; exact hi)
  rwa [Nat.zero_add, List.getElem?_replicate, if_pos hi] at h

/-- The start of an ENCODE of the largest payload, with the given PIN. -/
def ready200 (m : Memory) : State := { ready false 0x7FF#29 200#32 with pin := m }

theorem ready200_pin (m : Memory) : (ready200 m).pin = m := rfl

theorem ready200_len (m : Memory) : (ready200 m).payloadLen.toNat = 200 := rfl

theorem ready200_legal (m : Memory) : idLegal (ready200 m).hdrExt (ready200 m).arbId = true :=
  (by decide : idLegal false 0x7FF#29 = true)

/-- One state with the largest payload, every byte of it written. -/
theorem witness_RoundTripGivesThePayloadBack :
    idLegal (ready200 fullPin).hdrExt (ready200 fullPin).arbId = true ∧ (ready200 fullPin).payloadLen.toNat ≤ 200 ∧
    ∀ i, i < (ready200 fullPin).payloadLen.toNat → readCell (ready200 fullPin).pin i ≠ none := by
  refine ⟨ready200_legal _, Nat.le_of_eq (ready200_len _), fun i hi => ?_⟩
  rw [ready200_len] at hi
  rw [ready200_pin, readCell_fullPin hi]
  exact Option.some_ne_none _

theorem witness_RtrEncodeThenDecodeIsOne :
    ∃ t, exec (.encode true) startW1 = .next t ∧ t.readPlace .status = 0#32 := ⟨_, rfl, by decide⟩

theorem witness_DataEncodeThenDecodeIsZero :
    ∃ t, exec (.encode false) startW1 = .next t ∧ t.readPlace .status = 0#32 ∧ 2 < t.fb.frames.length :=
  ⟨_, rfl, by decide, by decide⟩

/-- One frame, 25 frames, and one byte more. -/
theorem witness_MultipleOfEightMakesFullFrames :
    (∀ k ∈ [1, 25], idLegal (ready false 0x7FF#29 (BitVec.ofNat 32 (8 * k))).hdrExt
        (ready false 0x7FF#29 (BitVec.ofNat 32 (8 * k))).arbId = true ∧ 1 ≤ k ∧ k ≤ 25 ∧
      (ready false 0x7FF#29 (BitVec.ofNat 32 (8 * k))).payloadLen.toNat = 8 * k) ∧
    idLegal (ready false 0x7FF#29 201#32).hdrExt (ready false 0x7FF#29 201#32).arbId = true ∧
    200 < (ready false 0x7FF#29 201#32).payloadLen.toNat := by decide

theorem witness_OutcomePriority :
    ∀ i ∈ [Instr.encode true, .decodeRtr 31, .extractPayload, .setExtHeader, .send, .receive],
      ∃ t, exec i busy = .next t := fun i _ => exec_total i busy

/-- A fault of the decoder and one of a command. -/
theorem witness_PrecondFaultChangesNothingElse :
    (∃ t, issueCommand 0x00000000#32 busy = .next t ∧ t.status.code = 2#2) ∧
    ∃ t, issueCommand 0x001F0002#32 busy = .next t ∧ t.status.code = 2#2 := ⟨⟨_, rfl, by decide⟩, ⟨_, rfl, by decide⟩⟩

/-- A valid buffer and none, so that every disjunct of both clauses is met. -/
theorem witness_OneTransportCallPerBoundaryCommand :
    (∀ i ∈ [Instr.setExtHeader, .receive, .send, .encode false, .decodeRtr 0, .extractPayload],
      (∃ t, exec i busy = .next t) ∧ ∃ t, exec i State.reset = .next t) ∧
    busy.fbValid = true ∧ State.reset.fbValid = false :=
  ⟨fun i _ => ⟨exec_total i busy, exec_total i State.reset⟩, rfl, rfl⟩

/-- A SET_EXT_HEADER that turns the mode, and any other step in extended mode. -/
theorem witness_HeaderModeOnlyEverTurnsExtended :
    (∃ t, step { answering [.ok] [] [] with host := ⟨[.wr 0x000 (.const 4#32)], 0, []⟩ } = .next t ∧
      t.hdrExt = true) ∧
    ¬ NextLine { answering [.ok] [] [] with host := ⟨[.wr 0x000 (.const 4#32)], 0, []⟩ } .platformReset ∧
    (∃ t, step { busy with hdrExt := true } = .next t) ∧ ¬ NextLine { busy with hdrExt := true } .platformReset :=
  ⟨⟨_, rfl, rfl⟩, by unfold NextLine; decide, ⟨_, rfl⟩, by unfold NextLine; decide⟩

/-- The largest ID that is legal in both modes. -/
theorem witness_HeaderModeDecidesOnlyLegality :
    Instr.encode true ≠ .setExtHeader ∧ ({ busy with arbId := 0x7FF#29 } : State).arbId.toNat < 2 ^ 11 ∧
    ∃ t, exec (.encode true) { busy with arbId := 0x7FF#29 } = .next t := ⟨by decide, by decide, _, rfl⟩

/-- `busy`, with every field that CommandsIgnoreTheResultRegisters lets differ at another value. -/
def busyToo : State :=
  { busy with
    status := ⟨3#2, 0#4⟩, transportCode := 9#32, resultRtr := false, outCount := 0#8, pout := []
    host := ⟨[], 0, []⟩, record := [.ok] }

/-- Every clause: a DECODE_RTR and an EXTRACT_PAYLOAD that end OK, the latter with 3 bytes, a RECEIVE and an ENCODE. -/
theorem witness_CommandsIgnoreTheResultRegisters :
    busyToo = { busy with
        status := busyToo.status, transportCode := busyToo.transportCode, resultRtr := busyToo.resultRtr,
        outCount := busyToo.outCount, pout := busyToo.pout, host := busyToo.host, record := busyToo.record } ∧
    busyToo.status ≠ busy.status ∧ busyToo.resultRtr ≠ busy.resultRtr ∧ busyToo.outCount ≠ busy.outCount ∧
    busyToo.pout ≠ busy.pout ∧
    (∃ t t', exec (.decodeRtr 0) busy = .next t ∧ exec (.decodeRtr 0) busyToo = .next t' ∧
      t.readPlace .status = 0#32) ∧
    (∃ t t', exec .extractPayload busy = .next t ∧ exec .extractPayload busyToo = .next t' ∧
      t.readPlace .status = 0#32 ∧ 2 < t.outCount.toNat) ∧
    (∃ t t', exec .receive busy = .next t ∧ exec .receive busyToo = .next t' ∧ t.status.code ≠ 2#2) ∧
    ∃ t t', exec (.encode true) busy = .next t ∧ exec (.encode true) busyToo = .next t' ∧ t.status.code ≠ 2#2 :=
  ⟨rfl, by decide, by decide, by decide, by decide, ⟨_, _, rfl, rfl, by decide⟩,
    ⟨_, _, rfl, rfl, by decide, by decide⟩, ⟨_, _, rfl, rfl, by decide⟩, ⟨_, _, rfl, rfl, by decide⟩⟩

theorem witness_DecodingCanBeRepeated :
    (∃ t, exec .extractPayload busy = .next t ∧ t.readPlace .status = 0#32) ∧
    ∃ t, exec (.decodeRtr 0) busy = .next t ∧ t.readPlace .status = 0#32 := ⟨⟨_, rfl, by decide⟩, ⟨_, rfl, by decide⟩⟩

/-- An ENCODE that ends OK, one that ends ABORTED, and a RECEIVE. -/
theorem witness_NoDecodeResultOutlivesItsBuffer :
    (∃ t, exec (.encode false) startW1 = .next t ∧ t.status.code ≠ 2#2) ∧
    (∃ t, exec (.encode false) { busy with payloadLen := 201#32 } = .next t ∧ t.status.code ≠ 2#2) ∧
    ∃ t, exec .receive busy = .next t ∧ t.status.code ≠ 2#2 :=
  ⟨⟨_, rfl, by decide⟩, ⟨_, rfl, by decide⟩, ⟨_, rfl, by decide⟩⟩

/-- The first and the last address of the window. -/
theorem witness_WindowIsOnePageAtTheBase :
    0xFFF ≤ 0xFFF ∧ offsetOf Config.codecBase = some 0 ∧ offsetOf (Config.codecBase + 0xFFF) = some 0xFFF :=
  ⟨by decide, by simp [offsetOf], by simp [offsetOf]⟩

/-- A step that adds an outcome. -/
theorem witness_RecordNeverLosesAnOutcome : ∃ t, step busy = .next t ∧ t.record = [.ok] := ⟨_, rfl, rfl⟩

end Sys2Proof.Tests
end

section
/-! SUPPORT. What `STATUS` and `TRANSPORT_CODE` read as after a command (R201), and the proof of O45: every command ends
through `State.endWith`, so it is enough to say once what `State.endWith` leaves in the two registers. -/

namespace Sys2Proof.Machine

/-! The `STATUS` word of each row of R201's table. -/

theorem statusWord_ok : statusWord (statusOf .ok) = 0#32 := by decide

theorem statusWord_aborted : statusWord (statusOf .aborted) = 1#32 := by decide

theorem statusWord_precondFault (c : Cause) :
    statusWord (statusOf (.precondFault c)) = 2#32 + (causeNumber c <<< 8) := by
  cases c <;> decide

theorem statusWord_transportError (code : Word) : statusWord (statusOf (.transportError code)) = 3#32 := by
  simp [statusOf, statusWord]

/-- Ending with an outcome writes that outcome's row of R201's table. -/
theorem readsAsOutcome_endWith (s : State) (o : CmdOutcome) : ReadsAsOutcome (s.endWith o) o := by
  cases o with
  | ok => exact ⟨statusWord_ok, rfl⟩
  | aborted => exact ⟨statusWord_aborted, rfl⟩
  | precondFault c => exact ⟨statusWord_precondFault c, rfl⟩
  | transportError code => exact ⟨statusWord_transportError code, rfl⟩

/-- Settles O45: by `exec_total` the command answers a next state, and by `exec_ends` that state is the end of the
command with one outcome, over the record it began with. -/
theorem everyCommandWritesItsOutcome : Obligations.EveryCommandWritesItsOutcome := by
  intro s i
  obtain ⟨t, ht⟩ := exec_total i s
  obtain ⟨o, u, rfl, hrecord, -⟩ := exec_ends ht
  exact ⟨_, o, ht, by simp [hrecord], readsAsOutcome_endWith u o⟩

end Sys2Proof.Machine
end

section
/-! SUPPORT. The invariant of the block, operation by operation, and the proof of O9: every command is built from these
operations, so each keeps the invariant because they do. -/

namespace Sys2Proof.Machine

variable {s t : State}

/-- The invariant says nothing of the operand registers, the header mode, the transport port, the draw counter and the
record, and of the host only that its temporaries are in canonical form. -/
theorem State.Inv.of_same_constrained (hs : s.Inv) {a : ArbId} {n : Word} {e : Bool} {p : Transport} {h : HostSide}
    {d : Nat} {r : List CmdOutcome} (ht : tempsWf h.temps = true) :
    State.Inv { s with
      arbId := a, payloadLen := n, hdrExt := e, transport := p, host := h, draws := d, record := r } :=
  { hs with temps_wf := ht }

theorem State.Inv.drawn (hs : s.Inv) : s.drawn.Inv := hs.of_same_constrained hs.temps_wf

theorem State.Inv.advance (hs : s.Inv) : s.advance.Inv := hs.of_same_constrained hs.temps_wf

theorem State.Inv.setExtended (hs : s.Inv) : s.setExtended.Inv := hs.of_same_constrained hs.temps_wf

theorem State.Inv.callSetExtendedHeader (hs : s.Inv) : s.callSetExtendedHeader.Inv :=
  hs.of_same_constrained hs.temps_wf

theorem State.Inv.callSend (hs : s.Inv) (fs : List Frame) : (s.callSend fs).Inv :=
  hs.of_same_constrained hs.temps_wf

theorem State.Inv.callReceive (hs : s.Inv) : s.callReceive.Inv := hs.of_same_constrained hs.temps_wf

/-! The end of a command. -/

theorem statusLegal_statusOf (o : CmdOutcome) : statusLegal (statusOf o) = true := by
  cases o with
  | precondFault c => cases c <;> decide
  | _ => rfl

theorem transportCodeOf_eq_zero {o : CmdOutcome} (h : (statusOf o).code ≠ 3#2) : transportCodeOf o = 0#32 := by
  cases o with
  | transportError code => exact absurd rfl h
  | _ => rfl

theorem State.Inv.endWith (hs : s.Inv) (o : CmdOutcome) : (s.endWith o).Inv :=
  { hs with
    status_legal := statusLegal_statusOf o
    transport_code_zero := transportCodeOf_eq_zero }

/-! The frame buffer and the decode results (R42). -/

theorem State.Inv.replaceFB (hs : s.Inv) (b : Batch) : (s.replaceFB b).Inv :=
  { hs with
    invalid_empty := nofun
    result_backed := nofun
    out_bound := Nat.zero_le _
    out_backed := fun h => absurd rfl h }

theorem State.Inv.invalidateFB (hs : s.Inv) : s.invalidateFB.Inv :=
  { hs with
    invalid_empty := fun _ => rfl
    result_backed := nofun
    out_bound := Nat.zero_le _
    out_backed := fun h => absurd rfl h }

theorem State.Inv.setResult (hs : s.Inv) {f : Frame} (hf : f ∈ s.fb.frames) :
    (s.setResult (dlcIsRtr f.dlc)).Inv :=
  { hs with result_backed := fun h => ⟨f, hf, h⟩ }

/-- OUT_LEN holds the length of the extracted message, which fits its 8 bits (R150). -/
theorem toNat_extractedCount (b : Batch) :
    (BitVec.ofNat 8 (batchBytes b.frames).length).toNat = (batchBytes b.frames).length := by
  have := length_batchBytes_batch b
  rw [BitVec.toNat_ofNat, Nat.mod_eq_of_lt (by omega)]

theorem State.Inv.setExtracted (hs : s.Inv) (hw : allWellFormed s.fb.frames = true) :
    (s.setExtracted (batchBytes s.fb.frames)).Inv := by
  have hcount := toNat_extractedCount s.fb
  have hlen := length_batchBytes_batch s.fb
  obtain ⟨hwf, hwithin⟩ := hs.pout_wf
  exact
    { hs with
      out_bound := hcount.trans_le hlen
      out_backed := fun _ => ⟨hw, hcount, fun i hi => by
        have hread := readCell_memWrite_inside (m := s.pout) (i := 0) (hi.trans_eq hcount)
        rwa [Nat.zero_add] at hread⟩
      pout_wf := ⟨wf_memWrite hwf, within_memWrite (by rwa [Nat.zero_add]) hwithin⟩ }

/-! The rest of what a step does. -/

theorem State.Inv.writePin (hs : s.Inv) {i : Nat} (hi : i + 4 ≤ 200) (w : Word) :
    State.Inv { s with pin := memWrite s.pin i (lanes w) } :=
  have ⟨hwf, hwithin⟩ := hs.pin_wf
  { hs with pin_wf := ⟨wf_memWrite hwf, within_memWrite hi hwithin⟩ }

theorem State.Inv.resetBlock (hs : s.Inv) : s.resetBlock.Inv where
  status_legal := rfl
  transport_code_zero _ := rfl
  invalid_empty _ := rfl
  result_backed := nofun
  out_bound := Nat.zero_le _
  out_backed h := absurd rfl h
  pin_wf := ⟨rfl, rfl⟩
  pout_wf := ⟨rfl, rfl⟩
  temps_wf := hs.temps_wf

/-- Every command keeps the invariant, whatever the transport answers. -/
theorem exec_keeps_inv {i : Instr} (hs : s.Inv) (h : exec i s = .next t) : t.Inv := by
  cases i with
  | encode r =>
    rcases execEncode_next h with ⟨_, rfl⟩ | ⟨_, _, rfl⟩ | ⟨_, _, _, b, _, rfl⟩ | ⟨_, _, _, rfl⟩
    · exact hs.endWith _
    · exact (hs.replaceFB _).endWith _
    · exact (hs.drawn.replaceFB b).endWith _
    · exact hs.invalidateFB.endWith _
  | decodeRtr k =>
    rcases execDecodeRtr_next h with ⟨_, rfl⟩ | ⟨_, _, rfl⟩ | ⟨_, f, hf, rfl⟩
    · exact hs.endWith _
    · exact hs.endWith _
    · exact (hs.setResult (List.mem_of_getElem? hf)).endWith _
  | extractPayload =>
    rcases execExtractPayload_next h with ⟨_, rfl⟩ | ⟨_, _, rfl⟩ | ⟨_, hw, rfl⟩
    · exact hs.endWith _
    · exact hs.endWith _
    · exact (hs.setExtracted hw).endWith _
  | setExtHeader =>
    rcases execSetExtHeader_next h with ⟨_, rfl⟩ | ⟨_, _, rfl⟩
    · exact hs.callSetExtendedHeader.setExtended.endWith _
    · exact hs.callSetExtendedHeader.endWith _
  | send =>
    rcases execSend_next h with ⟨_, rfl⟩ | ⟨_, _, rfl⟩ | ⟨_, _, _, rfl⟩
    · exact hs.endWith _
    · exact (hs.callSend _).endWith _
    · exact (hs.callSend _).endWith _
  | receive =>
    rcases execReceive_next h with ⟨b, _, rfl⟩ | ⟨_, _, rfl⟩
    · exact (hs.callReceive.replaceFB b).endWith _
    · exact hs.callReceive.invalidateFB.endWith _

/-- Settles O9: one case for each thing a step can do (`step_cases`), each by what its operations keep. -/
theorem everyStepKeepsInv : Obligations.EveryStepKeepsInv := by
  intro s t hs h
  cases step_cases h with
  | idle ht => exact ht ▸ hs
  | hostOnly h ht htemps => exact ht ▸ hs.of_same_constrained (htemps hs.temps_wf)
  | windowRead h ht htemps => exact ht ▸ hs.of_same_constrained (htemps hs.temps_wf)
  | command v w i _ _ _ hexec => exact exec_keeps_inv hs.advance hexec
  | rejected c ht => exact ht ▸ hs.advance.endWith _
  | arbId w ht => exact ht ▸ hs.of_same_constrained hs.temps_wf
  | payloadLen w ht => exact ht ▸ hs.of_same_constrained hs.temps_wf
  | pin i w hi ht => exact ht ▸ hs.advance.writePin hi w
  | reset _ ht => exact ht ▸ hs.resetBlock.advance

end Sys2Proof.Machine
end

section
/-! SUPPORT. What the host's accesses to the window do: the words its reads return and what its writes store, and the
proofs of O16, O17, O18, O10 and O12. -/

namespace Sys2Proof.Machine

variable {s : State}

/-! Reads. -/

/-- An admitted read puts the word of its place into the temporary. -/
theorem step_read_word {off : Nat} {x : Temp} {w : Word} (hl : NextLine s (.rd off x)) (ha : admitted off = true)
    (hw : s.readPlace (placeOf off) = w) : ∃ t, step s = .next t ∧ readTemp t.host.temps x = some w := by
  obtain ⟨t, ht, htemp, -⟩ := step_read hl ha
  exact ⟨t, ht, hw ▸ htemp⟩

theorem admitted_of_aligned {off : Nat} (h : off < 0x1000) (h4 : off % 4 = 0) : admitted off = true := by
  simp [admitted, h, h4]

theorem arbIdWord_toNat (id : ArbId) : (arbIdWord id).toNat = id.toNat := BitVec.toNat_setWidth_of_le (by decide)

theorem outLenWord_toNat (count : BitVec 8) : (outLenWord count).toNat = count.toNat :=
  BitVec.toNat_setWidth_of_le (by decide)

/-- A batch's length fits the 5 bits of FB_INFO.LEN (R27). -/
theorem State.fbLen_lt (s : State) : s.fbLen < 32 := Nat.lt_of_le_of_lt s.fb.bound (by decide)

/-- Settles O16: at each offset the word of the register's place has the number its fields make up. -/
theorem registerReadsReturnTheirFields : Obligations.RegisterReadsReturnTheirFields := by
  intro s x off w hl hw
  rcases hw with ⟨rfl, hw⟩ | ⟨rfl, hw⟩ | ⟨rfl, hw⟩ | ⟨rfl, hw⟩ | ⟨rfl, hw⟩ | ⟨rfl, hw⟩ | ⟨rfl, hw⟩ | ⟨rfl, hw⟩
  · exact step_read_word hl rfl (BitVec.eq_of_toNat_eq ((statusWord_toNat _).trans hw.symm))
  · exact step_read_word hl rfl (BitVec.eq_of_toNat_eq ((arbIdWord_toNat _).trans hw.symm))
  · exact step_read_word hl rfl hw.symm
  · exact step_read_word hl rfl (BitVec.eq_of_toNat_eq ((fbInfoWord_toNat _ s.fbLen_lt).trans hw.symm))
  · exact step_read_word hl rfl (BitVec.eq_of_toNat_eq ((flagWord_toNat _).trans hw.symm))
  · exact step_read_word hl rfl (BitVec.eq_of_toNat_eq ((flagWord_toNat _).trans hw.symm))
  · exact step_read_word hl rfl (BitVec.eq_of_toNat_eq ((outLenWord_toNat _).trans hw.symm))
  · exact step_read_word hl rfl hw.symm

/-- Lane `b` of a word made of four consecutive bytes `g 0` to `g 3` is `g b` (R65). -/
theorem lane_wordOfLanes_consecutive (g : Nat → Byte) {b : Nat} (hb : b < 4) :
    (wordOfLanes (g 0) (g 1) (g 2) (g 3)).extractLsb' (8 * b) 8 = g b := by
  have hlane := lane_wordOfLanes (g 0) (g 1) (g 2) (g 3) hb
  have hbyte : [g 0, g 1, g 2, g 3][b]? = some (g b) := by
    match b, hb with
    | 0, _ | 1, _ | 2, _ | 3, _ => rfl
  exact Option.some.inj (hlane.trans hbyte)

theorem lane_pinWord (s : State) (i : Nat) {b : Nat} (hb : b < 4) :
    (s.pinWord i).extractLsb' (8 * b) 8 = byteAt s.pin s.draws (i + b) :=
  lane_wordOfLanes_consecutive (fun j => byteAt s.pin s.draws (i + j)) hb

theorem lane_poutWord (s : State) (i : Nat) {b : Nat} (hb : b < 4) :
    (s.poutWord i).extractLsb' (8 * b) 8 = s.poutByte (i + b) :=
  lane_wordOfLanes_consecutive (fun j => s.poutByte (i + j)) hb

/-- Settles O17: the word read is the one of PIN or POUT from byte `4j`, and its lane `b` is byte `4j + b`. -/
theorem payloadWindowsReadTheirBytes : Obligations.PayloadWindowsReadTheirBytes := by
  intro s x j b v hj hb
  constructor
  · intro hl hv
    obtain ⟨t, ht, htemp⟩ := step_read_word hl (admitted_of_aligned (by omega) (by omega)) rfl
    rw [placeOf_pin (by omega)] at htemp
    exact ⟨t, _, ht, htemp, (lane_pinWord s _ hb).trans (byteAt_of_readCell hv)⟩
  · intro hl hlt hv
    obtain ⟨t, ht, htemp⟩ := step_read_word hl (admitted_of_aligned (by omega) (by omega)) rfl
    rw [placeOf_pout (by omega)] at htemp
    have hbyte : s.poutByte (4 * j + b) = v := by rw [State.poutByte, if_pos hlt, byteAt_of_readCell hv]
    exact ⟨t, _, ht, htemp, (lane_poutWord s _ hb).trans hbyte⟩

theorem State.slotWord_valid {k : Nat} {f : Frame} (hv : s.fbValid = true) (hf : s.fb.frames[k]? = some f)
    (part : Nat) : s.slotWord k part = frameWord f part := by
  simp [State.slotWord, hv, hf]

/-- The index of a valid slot is below 25 (R7). -/
theorem State.slot_lt {k : Nat} {f : Frame} (hf : s.fb.frames[k]? = some f) : k < 25 :=
  Nat.lt_of_lt_of_le (List.getElem?_eq_some_iff.1 hf).1 s.fb.bound

/-- A read of word `part` of a valid slot returns that word of its frame (R67). -/
theorem step_read_slot {k part : Nat} {f : Frame} {x : Temp} (hv : s.fbValid = true)
    (hf : s.fb.frames[k]? = some f) (hp : part < 4) (hl : NextLine s (.rd (0x400 + 16 * k + 4 * part) x)) :
    ∃ t, step s = .next t ∧ readTemp t.host.temps x = some (frameWord f part) := by
  have hk := State.slot_lt hf
  refine step_read_word hl (admitted_of_aligned (by omega) (by omega)) ?_
  rw [placeOf_slot hk hp]
  exact State.slotWord_valid hv hf part

/-- Settles O18: the four words of the slot's frame, by `step_read_slot` at each. -/
theorem frameWindowReadsTheSlot : Obligations.FrameWindowReadsTheSlot := by
  intro s x k f hv hf
  refine ⟨fun hl => ?_, fun hl => ?_, fun hl => ?_, fun hl => ?_⟩
  · obtain ⟨t, ht, htemp⟩ := step_read_slot (part := 0) hv hf (by omega) hl
    exact ⟨t, _, ht, htemp, BitVec.toNat_setWidth_of_le (by decide)⟩
  · obtain ⟨t, ht, htemp⟩ := step_read_slot (part := 1) hv hf (by omega) hl
    exact ⟨t, _, ht, htemp, BitVec.toNat_setWidth_of_le (by decide)⟩
  · exact step_read_slot (part := 2) hv hf (by omega) hl
  · exact step_read_slot (part := 3) hv hf (by omega) hl

/-! Writes. -/

/-- A CMD write of a word that decodes runs the command. -/
theorem issueCommand_of_decode {w : Word} {i : Instr} (hd : decode w = .instr i) : issueCommand w s = exec i s := by
  rw [issueCommand, hd]

/-- Settles O10: the write is admitted, and CMD is the place at offset 0. -/
theorem stepRunsTheDecodedCommand : Obligations.StepRunsTheDecodedCommand := by
  intro s v w i hl hv hd
  calc step s = issueCommand w s.advance := step_write hl hv rfl
    _ = exec i s.advance := issueCommand_of_decode hd

/-- ARB_ID keeps bits [28:0] of what is written, and reads 0 above them (R25). -/
theorem arbIdWord_setWidth (w : Word) : arbIdWord (w.setWidth Config.idWidth) = w &&& 0x1FFFFFFF#32 := by
  apply BitVec.eq_of_toNat_eq
  rw [arbIdWord_toNat, BitVec.toNat_setWidth, BitVec.toNat_and]
  exact (Nat.and_two_pow_sub_one_eq_mod w.toNat 29).symm

/-- Settles O12: both writes are admitted, and each stores its word in the one register of its place. -/
theorem operandRegisterWrites : Obligations.OperandRegisterWrites := by
  intro s v w hv
  exact ⟨fun hl => ⟨_, step_write hl hv rfl, arbIdWord_setWidth w, rfl⟩,
    fun hl => ⟨_, step_write hl hv rfl, rfl, rfl⟩⟩

end Sys2Proof.Machine
end

section
/-! SUPPORT. What each command writes and what it leaves unchanged, and the proofs of O37, O38, O39, O27, O52 and
O48. -/

namespace Sys2Proof.Machine

variable {s t : State} {i : Instr}

/-! The outcomes the host reads. -/

/-- STATUS reads 0 just when the command ended OK (R201). -/
theorem readPlace_status_endWith_eq_zero_iff (s : State) (o : CmdOutcome) :
    (s.endWith o).readPlace .status = 0#32 ↔ o = .ok := by
  refine ⟨fun h => ?_, fun h => h ▸ statusWord_ok⟩
  change statusWord (statusOf o) = 0#32 at h
  cases o with
  | ok => rfl
  | aborted => exact absurd h (by decide)
  | precondFault c => exact absurd h (by cases c <;> decide)
  | transportError code => exact absurd (statusWord_transportError code ▸ h) (by decide)

/-! What the commands leave unchanged. -/

/-- No command writes an operand register, PIN or the host; none but EXTRACT_PAYLOAD writes POUT, and none but
SET_EXT_HEADER the header mode (R43). -/
theorem exec_frame (h : exec i s = .next t) :
    SameOperands s t ∧ (i ≠ .extractPayload → SamePout s t) ∧ (i ≠ .setExtHeader → t.hdrExt = s.hdrExt) := by
  refine ⟨?_, ?_⟩
  · obtain ⟨o, u, rfl, -, hhost, hid, hlen, hpin⟩ := exec_ends h
    exact ⟨hid, hlen, fun a => congrArg (readCell · a) hpin, hhost⟩
  · cases i with
    | encode r =>
      rcases execEncode_next h with ⟨_, rfl⟩ | ⟨_, _, rfl⟩ | ⟨_, _, _, _, _, rfl⟩ | ⟨_, _, _, rfl⟩ <;>
        exact ⟨fun _ _ => rfl, fun _ => rfl⟩
    | decodeRtr k =>
      rcases execDecodeRtr_next h with ⟨_, rfl⟩ | ⟨_, _, rfl⟩ | ⟨_, _, _, rfl⟩ <;>
        exact ⟨fun _ _ => rfl, fun _ => rfl⟩
    | extractPayload =>
      rcases execExtractPayload_next h with ⟨_, rfl⟩ | ⟨_, _, rfl⟩ | ⟨_, _, rfl⟩ <;>
        exact ⟨fun hi => absurd rfl hi, fun _ => rfl⟩
    | setExtHeader =>
      rcases execSetExtHeader_next h with ⟨_, rfl⟩ | ⟨_, _, rfl⟩ <;>
        exact ⟨fun _ _ => rfl, fun hi => absurd rfl hi⟩
    | send =>
      rcases execSend_next h with ⟨_, rfl⟩ | ⟨_, _, rfl⟩ | ⟨_, _, _, rfl⟩ <;>
        exact ⟨fun _ _ => rfl, fun _ => rfl⟩
    | receive =>
      rcases execReceive_next h with ⟨_, _, rfl⟩ | ⟨_, _, rfl⟩ <;> exact ⟨fun _ _ => rfl, fun _ => rfl⟩

/-- ENCODE makes no transport call (R170). -/
theorem execEncode_transport {r : Bool} (h : execEncode r s = .next t) : t.transport = s.transport := by
  rcases execEncode_next h with ⟨_, rfl⟩ | ⟨_, _, rfl⟩ | ⟨_, _, _, _, _, rfl⟩ | ⟨_, _, _, rfl⟩ <;> rfl

/-- Settles O37: `exec_frame`, and for ENCODE the transport port. -/
theorem frameOfTheBufferCommands : Obligations.FrameOfTheBufferCommands := by
  intro s t i hi h
  obtain ⟨hoperands, hpout, hmode⟩ := exec_frame h
  rcases hi with rfl | ⟨r, rfl⟩
  · exact ⟨hoperands, hpout nofun, hmode nofun, fun hne => absurd rfl hne⟩
  · exact ⟨hoperands, hpout nofun, hmode nofun, fun _ => execEncode_transport h⟩

/-- DECODE_RTR writes RESULT and the outcome only (R145). -/
theorem execDecodeRtr_frame {k : Nat} (h : execDecodeRtr k s = .next t) :
    t.outCount = s.outCount ∧ t.fb = s.fb ∧ t.fbValid = s.fbValid ∧ t.transport = s.transport := by
  rcases execDecodeRtr_next h with ⟨_, rfl⟩ | ⟨_, _, rfl⟩ | ⟨_, _, _, rfl⟩ <;> exact ⟨rfl, rfl, rfl, rfl⟩

/-- SEND leaves the buffer and the decode results as they are (R180). -/
theorem execSend_frame (h : execSend s = .next t) :
    t.outCount = s.outCount ∧ t.fb = s.fb ∧ t.fbValid = s.fbValid ∧ t.resultRtr = s.resultRtr := by
  rcases execSend_next h with ⟨_, rfl⟩ | ⟨_, _, rfl⟩ | ⟨_, _, _, rfl⟩ <;> exact ⟨rfl, rfl, rfl, rfl⟩

/-- SET_EXT_HEADER leaves the buffer and the decode results as they are (R172). -/
theorem execSetExtHeader_frame (h : execSetExtHeader s = .next t) :
    t.outCount = s.outCount ∧ t.fb = s.fb ∧ t.fbValid = s.fbValid ∧ t.resultRtr = s.resultRtr := by
  rcases execSetExtHeader_next h with ⟨_, rfl⟩ | ⟨_, _, rfl⟩ <;> exact ⟨rfl, rfl, rfl, rfl⟩

/-- Settles O38: `exec_frame`, and what each of the three commands leaves unchanged besides. -/
theorem frameOfTheRegisterCommands : Obligations.FrameOfTheRegisterCommands := by
  intro s t i hi h
  obtain ⟨hoperands, hpout, hmode⟩ := exec_frame h
  rcases hi with rfl | rfl | ⟨k, rfl⟩
  · obtain ⟨hcount, hfb, hvalid, hresult⟩ := execSend_frame h
    exact ⟨hoperands, hpout nofun, hcount, hfb, hvalid, fun _ => hresult, hmode, nofun⟩
  · obtain ⟨hcount, hfb, hvalid, hresult⟩ := execSetExtHeader_frame h
    exact ⟨hoperands, hpout nofun, hcount, hfb, hvalid, fun _ => hresult, hmode, nofun⟩
  · obtain ⟨hcount, hfb, hvalid, htransport⟩ := execDecodeRtr_frame h
    exact ⟨hoperands, hpout nofun, hcount, hfb, hvalid, fun hne => absurd rfl (hne k), hmode, fun _ => htransport⟩

/-- EXTRACT_PAYLOAD writes POUT, OUT_LEN and the outcome only (R147). -/
theorem execExtractPayload_frame (h : execExtractPayload s = .next t) :
    t.fb = s.fb ∧ t.fbValid = s.fbValid ∧ t.resultRtr = s.resultRtr ∧ t.transport = s.transport := by
  rcases execExtractPayload_next h with ⟨_, rfl⟩ | ⟨_, _, rfl⟩ | ⟨_, _, rfl⟩ <;> exact ⟨rfl, rfl, rfl, rfl⟩

/-- EXTRACT_PAYLOAD stores the message of the batch where it ends OK (R149). -/
theorem execExtractPayload_of_ok (h : execExtractPayload s = .next t) (hok : t.readPlace .status = 0#32) :
    t.outCount = BitVec.ofNat 8 (batchBytes s.fb.frames).length ∧ t.pout = memWrite s.pout 0 (batchBytes s.fb.frames) := by
  rcases execExtractPayload_next h with ⟨_, rfl⟩ | ⟨_, _, rfl⟩ | ⟨_, _, rfl⟩
  · cases (readPlace_status_endWith_eq_zero_iff _ _).1 hok
  · cases (readPlace_status_endWith_eq_zero_iff _ _).1 hok
  · exact ⟨rfl, rfl⟩

/-- EXTRACT_PAYLOAD stores nothing where it does not end OK (R147). -/
theorem execExtractPayload_of_not_ok (h : execExtractPayload s = .next t) (hok : t.readPlace .status ≠ 0#32) :
    t.outCount = s.outCount ∧ t.pout = s.pout := by
  rcases execExtractPayload_next h with ⟨_, rfl⟩ | ⟨_, _, rfl⟩ | ⟨_, _, rfl⟩
  · exact ⟨rfl, rfl⟩
  · exact ⟨rfl, rfl⟩
  · exact absurd ((readPlace_status_endWith_eq_zero_iff _ _).2 rfl) hok

/-- Settles O39: the bytes stored are those of the batch's message, from POUT[0] on, so a later one is untouched. -/
theorem frameOfExtractPayload : Obligations.FrameOfExtractPayload := by
  intro s t h
  obtain ⟨hoperands, -, hmode⟩ := exec_frame h
  obtain ⟨hfb, hvalid, hresult, htransport⟩ := execExtractPayload_frame h
  refine ⟨hoperands, hfb, hvalid, hmode nofun, hresult, htransport, fun hok => ?_, fun hok a ha => ?_⟩
  · obtain ⟨hcount, hpout⟩ := execExtractPayload_of_not_ok h hok
    exact ⟨hcount, fun a => congrArg (readCell · a) hpout⟩
  · obtain ⟨-, hpout⟩ := execExtractPayload_of_ok h hok
    rw [hpout, readCell_memWrite_outside (by omega)]

/-! What ENCODE and RECEIVE write. -/

/-- The DLC byte of a frame of ENCODE's data path is its chunk's length, 1 to 8 (R96). -/
theorem dlc_dataFrame_bounds {f : Frame} (hf : f ∈ dataFrames s) : 1 ≤ f.dlc.toNat ∧ f.dlc.toNat ≤ 8 := by
  obtain ⟨x, -, rfl⟩ := mem_dataFrames.1 hf
  have hchunk := chunkLen_bounds s.payloadLength x
  have hdlc : (dataFrame s x).dlc.toNat = chunkLen s.payloadLength x := by
    rw [dataFrame, dlcByte_false, BitVec.toNat_ofNat, Nat.mod_eq_of_lt (by omega)]
  rwa [hdlc]

/-- Settles O27: of ENCODE's ends only the RTR and the data path are OK, and each says its frames. -/
theorem encodeWritesOnlyTheseDlcBytes : Obligations.EncodeWritesOnlyTheseDlcBytes := by
  intro s t r h hok f hf
  rcases execEncode_next h with ⟨_, rfl⟩ | ⟨_, hr, rfl⟩ | ⟨_, hr, _, b, hb, rfl⟩ | ⟨_, _, _, rfl⟩
  · cases (readPlace_status_endWith_eq_zero_iff _ _).1 hok
  · obtain rfl : f = rtrFrame s := List.mem_singleton.1 hf
    exact .inl ⟨hr, dlcByte_rtr⟩
  · exact .inr ⟨hr, dlc_dataFrame_bounds (hb ▸ hf)⟩
  · cases (readPlace_status_endWith_eq_zero_iff _ _).1 hok

/-- ENCODE and RECEIVE clear RESULT and OUT_LEN unless they end in a precondition fault (R42). -/
theorem exec_clears_results (hi : i = .receive ∨ ∃ r, i = .encode r) (h : exec i s = .next t)
    (hc : t.status.code ≠ 2#2) : t.resultRtr = false ∧ t.outCount = 0#8 := by
  rcases hi with rfl | ⟨r, rfl⟩
  · rcases execReceive_next h with ⟨_, _, rfl⟩ | ⟨_, _, rfl⟩ <;> exact ⟨rfl, rfl⟩
  · rcases execEncode_next h with ⟨_, rfl⟩ | ⟨_, _, rfl⟩ | ⟨_, _, _, _, _, rfl⟩ | ⟨_, _, _, rfl⟩
    · exact absurd rfl hc
    all_goals exact ⟨rfl, rfl⟩

/-- Settles O52: what `exec_clears_results` clears reads 0. -/
theorem noDecodeResultOutlivesItsBuffer : Obligations.NoDecodeResultOutlivesItsBuffer := by
  intro s t i hi h hc
  obtain ⟨hresult, hcount⟩ := exec_clears_results hi h hc
  exact ⟨congrArg flagWord hresult, congrArg outLenWord hcount⟩

/-! The header mode. -/

/-- The operation number of a word names its command (R92). -/
theorem opField_of_commandOf {w : Word} (h : commandOf w = .instr i) : opField w = opOf i := by
  unfold commandOf at h
  split at h <;> cases h <;> exact BitVec.eq_of_toNat_eq ‹_›

/-- What the decoder has checked of a word it accepts (R99). -/
theorem decode_instr {w : Word} (h : decode w = .instr i) :
    opField w = opOf i ∧ reservedClear w = true ∧ (opField w ≠ 1#4 → rField w = false) ∧
      (opField w ≠ 2#4 → idxField w = 0#5) := by
  unfold decode at h
  split_ifs at h with _ hclear hr hidx
  exact ⟨opField_of_commandOf h, Bool.eq_true_of_not_eq_false hclear,
    fun h1 => Bool.eq_false_of_not_eq_true fun hc => hr ⟨h1, hc⟩, fun h2 => not_not.1 fun hc => hidx ⟨h2, hc⟩⟩

/-- SET_EXT_HEADER has one command word (R102). -/
theorem eq_of_decode_setExtHeader {w : Word} (h : decode w = .instr .setExtHeader) : w = 0x00000004#32 := by
  obtain ⟨hop, hclear, hr, hidx⟩ := decode_instr h
  have hop : opField w = 4#4 := hop
  calc w = cmdw (idxField w) (rField w) (opField w) := eq_cmdw_of_reservedClear hclear
    _ = cmdw 0#5 false 4#4 := by rw [hr (by simp [hop]), hidx (by simp [hop]), hop]
    _ = 0x00000004#32 := by decide

/-- A command leaves the header mode as it is, or is a SET_EXT_HEADER that turns it to extended (R39). -/
theorem exec_hdrExt (h : exec i s = .next t) : t.hdrExt = s.hdrExt ∨ (i = .setExtHeader ∧ t.hdrExt = true) := by
  by_cases hi : i = .setExtHeader
  · subst hi
    rcases execSetExtHeader_next h with ⟨_, rfl⟩ | ⟨_, _, rfl⟩
    · exact .inr ⟨rfl, rfl⟩
    · exact .inl rfl
  · obtain ⟨-, -, hmode⟩ := exec_frame h
    exact .inl (hmode hi)

/-- A step other than a platform reset leaves the header mode as it is, or is a CMD write of SET_EXT_HEADER that turns
it to extended (R39). -/
theorem step_hdrExt (h : step s = .next t) (hreset : ¬ NextLine s .platformReset) :
    t.hdrExt = s.hdrExt ∨
      ((∃ v, NextLine s (.wr 0x000 v) ∧ OperandIs s v 0x00000004#32) ∧ t.hdrExt = true) := by
  cases step_cases h with
  | command v w i hl hv hd hexec =>
    rcases exec_hdrExt hexec with hsame | ⟨rfl, hext⟩
    · exact .inl hsame
    · exact .inr ⟨⟨v, hl, eq_of_decode_setExtHeader hd ▸ hv⟩, hext⟩
  | reset hl _ => exact absurd hl hreset
  | idle ht => exact .inl (ht ▸ rfl)
  | hostOnly _ ht _ => exact .inl (ht ▸ rfl)
  | windowRead _ ht _ => exact .inl (ht ▸ rfl)
  | rejected _ ht => exact .inl (ht ▸ rfl)
  | arbId _ ht => exact .inl (ht ▸ rfl)
  | payloadLen _ ht => exact .inl (ht ▸ rfl)
  | pin _ _ _ ht => exact .inl (ht ▸ rfl)

/-- Settles O48: both clauses are read off `step_hdrExt`. -/
theorem headerModeOnlyEverTurnsExtended : Obligations.HeaderModeOnlyEverTurnsExtended := by
  intro s t h hreset
  rcases step_hdrExt h hreset with hsame | ⟨hline, hext⟩
  · exact ⟨fun hs => hsame.trans hs, fun hs ht => absurd (ht.symm.trans (hsame.trans hs)) (by decide)⟩
  · exact ⟨fun _ => hext, fun _ _ => hline⟩

end Sys2Proof.Machine
end

section
/-! SUPPORT. What each command does in each of its cases, as an equation, so that the runs of one command from two
states can be compared; and the proofs of O49 and O50. -/

namespace Sys2Proof.Machine

variable {s t : State} {i : Instr}

/-! The equations. -/

theorem execEncode_illegal {r : Bool} (h : idLegal s.hdrExt s.arbId = false) :
    execEncode r s = .next (s.endWith (.precondFault .illegalId)) := by simp [execEncode, h]

theorem batch_eq_of_frames {b c : Batch} (h : b.frames = c.frames) : b = c := by
  cases b; cases c; cases h; rfl

/-- ENCODE on the data path, within the capacity: the batch is the one of its frames. -/
theorem execEncode_data_eq {b : Batch} (h : idLegal s.hdrExt s.arbId = true) (hn : s.payloadLength ≤ 200)
    (hb : b.frames = dataFrames s) : execEncode false s = .next ((s.drawn.replaceFB b).endWith .ok) := by
  obtain ⟨c, hc, heq⟩ := execEncode_data h hn
  rwa [batch_eq_of_frames (hb.trans hc.symm)]

theorem execDecodeRtr_noBuffer {k : Nat} (hv : s.fbValid = false) :
    execDecodeRtr k s = .next (s.endWith (.precondFault .noValidBuffer)) := by simp [execDecodeRtr, hv]

theorem execDecodeRtr_range {k : Nat} (hv : s.fbValid = true) (hk : s.fb.frames.length ≤ k) :
    execDecodeRtr k s = .next (s.endWith (.precondFault .indexRange)) := by
  simp [execDecodeRtr, hv, List.getElem?_eq_none hk]

theorem execExtractPayload_noBuffer (hv : s.fbValid = false) :
    execExtractPayload s = .next (s.endWith (.precondFault .noValidBuffer)) := by simp [execExtractPayload, hv]

theorem execExtractPayload_malformed (hv : s.fbValid = true) (hw : allWellFormed s.fb.frames = false) :
    execExtractPayload s = .next (s.endWith (.precondFault .malformedDlc)) := by simp [execExtractPayload, hv, hw]

theorem execSetExtHeader_ok (ha : s.headerAnswer = .ok) :
    execSetExtHeader s = .next (s.callSetExtendedHeader.setExtended.endWith .ok) := by simp [execSetExtHeader, ha]

theorem execSetExtHeader_err {code : Word} (ha : s.headerAnswer = .err code) :
    execSetExtHeader s = .next (s.callSetExtendedHeader.endWith (.transportError code)) := by
  simp [execSetExtHeader, ha]

theorem execSend_noBuffer (hv : s.fbValid = false) :
    execSend s = .next (s.endWith (.precondFault .noValidBuffer)) := by simp [execSend, hv]

theorem execSend_ok (hv : s.fbValid = true) (ha : s.sendAnswer = .ok) :
    execSend s = .next ((s.callSend s.fb.frames).endWith .ok) := by simp [execSend, hv, ha]

theorem execSend_err {code : Word} (hv : s.fbValid = true) (ha : s.sendAnswer = .err code) :
    execSend s = .next ((s.callSend s.fb.frames).endWith (.transportError code)) := by simp [execSend, hv, ha]

theorem execReceive_ok {b : Batch} (ha : s.rxAnswer = .ok b) :
    execReceive s = .next ((s.callReceive.replaceFB b).endWith .ok) := by simp [execReceive, ha]

theorem execReceive_err {code : Word} (ha : s.rxAnswer = .err code) :
    execReceive s = .next (s.callReceive.invalidateFB.endWith (.transportError code)) := by simp [execReceive, ha]

/-! The header mode (R38). -/

/-- Settles O49: the case a command is in, from the one state, holds of the other too, since no condition but the
legality of ENCODE's ID speaks of the header mode. -/
theorem headerModeDecidesOnlyLegality : Obligations.HeaderModeDecidesOnlyLegality := by
  intro s t i b hi hid h
  cases i with
  | encode r =>
    have hlegal (ext : Bool) : idLegal ext s.arbId = true := (idLegal_iff _ _).2 (.inr (hid ⟨r, rfl⟩))
    rcases execEncode_next h with ⟨hl, _⟩ | ⟨_, rfl, rfl⟩ | ⟨_, rfl, hn, c, hc, rfl⟩ | ⟨_, rfl, hn, rfl⟩
    · exact absurd (hl.symm.trans (hlegal _)) (by decide)
    · exact execEncode_rtr (hlegal b)
    · exact execEncode_data_eq (hlegal b) hn hc
    · exact execEncode_abort (hlegal b) hn
  | decodeRtr k =>
    rcases execDecodeRtr_next h with ⟨hv, rfl⟩ | ⟨hv, hk, rfl⟩ | ⟨hv, f, hf, rfl⟩
    · exact execDecodeRtr_noBuffer hv
    · exact execDecodeRtr_range hv hk
    · exact execDecodeRtr_valid hv hf
  | extractPayload =>
    rcases execExtractPayload_next h with ⟨hv, rfl⟩ | ⟨hv, hw, rfl⟩ | ⟨hv, hw, rfl⟩
    · exact execExtractPayload_noBuffer hv
    · exact execExtractPayload_malformed hv hw
    · exact execExtractPayload_valid hv hw
  | setExtHeader => exact absurd rfl hi
  | send =>
    rcases execSend_next h with ⟨hv, rfl⟩ | ⟨hv, ha, rfl⟩ | ⟨hv, code, ha, rfl⟩
    · exact execSend_noBuffer hv
    · exact execSend_ok hv ha
    · exact execSend_err hv ha
  | receive =>
    rcases execReceive_next h with ⟨c, ha, rfl⟩ | ⟨code, ha, rfl⟩
    · exact execReceive_ok ha
    · exact execReceive_err ha

/-! The registers no command reads (R32). -/

/-- `s` with STATUS, TRANSPORT_CODE, RESULT, OUT_LEN, POUT, the host and the record of `u`: what no command reads. -/
def State.withUnread (s u : State) : State :=
  { s with
    status := u.status, transportCode := u.transportCode, resultRtr := u.resultRtr, outCount := u.outCount,
    pout := u.pout, host := u.host, record := u.record }

/-- From a state that differs only in what no command reads, a command's run differs only there, and reports the same
outcome. -/
theorem exec_withUnread (u : State) (h : exec i s = .next t) :
    ∃ t', exec i (s.withUnread u) = .next t' ∧
      t' = t.withUnread t' ∧ t'.status = t.status ∧ t'.transportCode = t.transportCode := by
  cases i with
  | encode r =>
    rcases execEncode_next h with ⟨hl, rfl⟩ | ⟨hl, rfl, rfl⟩ | ⟨hl, rfl, hn, c, hc, rfl⟩ | ⟨hl, rfl, hn, rfl⟩
    · exact ⟨_, execEncode_illegal hl, rfl, rfl, rfl⟩
    · exact ⟨_, execEncode_rtr hl, rfl, rfl, rfl⟩
    · exact ⟨_, execEncode_data_eq hl hn hc, rfl, rfl, rfl⟩
    · exact ⟨_, execEncode_abort hl hn, rfl, rfl, rfl⟩
  | decodeRtr k =>
    rcases execDecodeRtr_next h with ⟨hv, rfl⟩ | ⟨hv, hk, rfl⟩ | ⟨hv, f, hf, rfl⟩
    · exact ⟨_, execDecodeRtr_noBuffer hv, rfl, rfl, rfl⟩
    · exact ⟨_, execDecodeRtr_range hv hk, rfl, rfl, rfl⟩
    · exact ⟨_, execDecodeRtr_valid hv hf, rfl, rfl, rfl⟩
  | extractPayload =>
    rcases execExtractPayload_next h with ⟨hv, rfl⟩ | ⟨hv, hw, rfl⟩ | ⟨hv, hw, rfl⟩
    · exact ⟨_, execExtractPayload_noBuffer hv, rfl, rfl, rfl⟩
    · exact ⟨_, execExtractPayload_malformed hv hw, rfl, rfl, rfl⟩
    · exact ⟨_, execExtractPayload_valid hv hw, rfl, rfl, rfl⟩
  | setExtHeader =>
    rcases execSetExtHeader_next h with ⟨ha, rfl⟩ | ⟨code, ha, rfl⟩
    · exact ⟨_, execSetExtHeader_ok ha, rfl, rfl, rfl⟩
    · exact ⟨_, execSetExtHeader_err ha, rfl, rfl, rfl⟩
  | send =>
    rcases execSend_next h with ⟨hv, rfl⟩ | ⟨hv, ha, rfl⟩ | ⟨hv, code, ha, rfl⟩
    · exact ⟨_, execSend_noBuffer hv, rfl, rfl, rfl⟩
    · exact ⟨_, execSend_ok hv ha, rfl, rfl, rfl⟩
    · exact ⟨_, execSend_err hv ha, rfl, rfl, rfl⟩
  | receive =>
    rcases execReceive_next h with ⟨b, ha, rfl⟩ | ⟨code, ha, rfl⟩
    · exact ⟨_, execReceive_ok ha, rfl, rfl, rfl⟩
    · exact ⟨_, execReceive_err ha, rfl, rfl, rfl⟩

/-- DECODE_RTR gives bit 4 of the DLC byte of the slot where it ends OK (R144). -/
theorem execDecodeRtr_of_ok {k : Nat} (h : execDecodeRtr k s = .next t) (hok : t.readPlace .status = 0#32) :
    ∃ f, s.fb.frames[k]? = some f ∧ t.resultRtr = dlcIsRtr f.dlc := by
  rcases execDecodeRtr_next h with ⟨_, rfl⟩ | ⟨_, _, rfl⟩ | ⟨_, f, hf, rfl⟩
  · cases (readPlace_status_endWith_eq_zero_iff _ _).1 hok
  · cases (readPlace_status_endWith_eq_zero_iff _ _).1 hok
  · exact ⟨f, hf, rfl⟩

/-- After EXTRACT_PAYLOAD ends OK, the bytes of POUT below OUT_LEN are those of the batch's message (R149). -/
theorem readCell_pout_of_ok {a : Nat} (h : execExtractPayload s = .next t) (hok : t.readPlace .status = 0#32)
    (ha : a < t.outCount.toNat) : readCell t.pout a = (batchBytes s.fb.frames)[a]? := by
  obtain ⟨hcount, hpout⟩ := execExtractPayload_of_ok h hok
  rw [hcount, toNat_extractedCount] at ha
  have hread := readCell_memWrite_inside (m := s.pout) (i := 0) ha
  rwa [Nat.zero_add, ← hpout] at hread

/-- Settles O50: `exec_withUnread`, and for what a command writes of RESULT, OUT_LEN and POUT the lemmas that give it
from the buffer alone. -/
theorem commandsIgnoreTheResultRegisters : Obligations.CommandsIgnoreTheResultRegisters := by
  intro s s' t t' i (hs : s' = s.withUnread s') h h'
  obtain ⟨v, hv, ht, hstatus, hcode⟩ := exec_withUnread s' h
  have hfb : s'.fb = s.fb := by rw [hs]; rfl
  obtain rfl : t' = v := Host.Outcome.next.inj (h'.symm.trans (hs ▸ hv))
  have hword : t'.readPlace .status = t.readPlace .status := congrArg statusWord hstatus
  have hkept {α : Type} (field : State → α) : field t' = field (t.withUnread t') := congrArg field ht
  refine ⟨⟨hstatus, hcode, hkept State.transport, hkept State.fb, hkept State.fbValid, hkept State.hdrExt,
    hkept State.arbId, hkept State.payloadLen, hkept State.pin⟩, ?_, ?_, ?_⟩
  · rintro ⟨k, rfl⟩ hok
    obtain ⟨f, hf, hresult⟩ := execDecodeRtr_of_ok h hok
    obtain ⟨f', hf', hresult'⟩ := execDecodeRtr_of_ok h' (hword.trans hok)
    obtain rfl : f = f' := Option.some.inj (hf.symm.trans (hfb ▸ hf'))
    rw [hresult, hresult']
  · rintro rfl hok
    obtain ⟨hlen, -⟩ := execExtractPayload_of_ok h hok
    obtain ⟨hlen', -⟩ := execExtractPayload_of_ok h' (hword.trans hok)
    have hcount : t'.outCount = t.outCount := by rw [hlen, hlen', hfb]
    refine ⟨hcount, fun a ha => ?_⟩
    rw [readCell_pout_of_ok h' (hword.trans hok) (hcount ▸ ha), readCell_pout_of_ok h hok ha, hfb]
  · intro hi hc
    obtain ⟨hresult, hcount⟩ := exec_clears_results hi h hc
    obtain ⟨hresult', hcount'⟩ := exec_clears_results hi h' (hstatus ▸ hc)
    exact ⟨hresult'.trans hresult.symm, hcount'.trans hcount.symm⟩

end Sys2Proof.Machine
end

section
/-! SUPPORT. The offsets of the window: its addresses, its reserved offsets, the writes it ignores and the accesses it
does not admit, and the proofs of O14, O13, O15, O19 and O53. -/

namespace Sys2Proof.Machine

variable {s : State}

/-! Reserved offsets, and the offsets at which a write is ignored (R64). -/

/-- The register block is reserved above TRANSPORT_CODE (R63). -/
theorem registerAt_reserved {off : Nat} (h : 0x024 ≤ off) : registerAt off = .reserved := by
  rcases registerAt_cases off with ⟨-, ho⟩ | ⟨-, ho⟩ | ⟨-, ho⟩ | ⟨-, ho⟩ | ⟨-, ho⟩ | ⟨-, ho⟩ | ⟨-, ho⟩ | ⟨-, ho⟩ |
    ⟨-, ho⟩ | ⟨hreserved, -⟩
  pick_goal 10
  · exact hreserved
  all_goals omega

/-- The reserved offsets: above the registers, the payload windows and the frame slots (R63). -/
theorem placeOf_reserved {off : Nat} (h : (0x024 ≤ off ∧ off ≤ 0x0FF) ∨ (0x1C8 ≤ off ∧ off ≤ 0x1FF) ∨
    (0x2C8 ≤ off ∧ off ≤ 0x3FF) ∨ 0x590 ≤ off) : placeOf off = .reserved := by
  rcases placeOf_cases off with ⟨_, hp⟩ | ⟨_, _, -⟩ | ⟨_, _, -⟩ | ⟨_, _, -⟩ | ⟨-, hp, -⟩
  · exact hp.trans (registerAt_reserved (by omega))
  · omega
  · omega
  · omega
  · exact hp

/-- A write at an aligned offset other than those of CMD, ARB_ID, PAYLOAD_LEN and PIN does nothing (R64). -/
theorem writePlace_ignored {off : Nat} (h4 : off % 4 = 0) (hcmd : off ≠ 0x000) (harb : off ≠ 0x008)
    (hlen : off ≠ 0x00C) (hpin : off < 0x100 ∨ 0x1C8 ≤ off) (w : Word) (s : State) :
    writePlace (placeOf off) w s = .next s := by
  rcases placeOf_written off h4 with ⟨ho, -⟩ | ⟨ho, -⟩ | ⟨ho, -⟩ | ⟨i, hi, ho, -⟩ | hignored
  · exact absurd ho hcmd
  · exact absurd ho harb
  · exact absurd ho hlen
  · omega
  · exact hignored w s

/-- Settles O14: the place of the read is CMD or reserved, and the place of the write is one that ignores it. -/
theorem reservedAndReadOnlyAccesses : Obligations.ReservedAndReadOnlyAccesses := by
  intro s off ha
  refine ⟨fun x hl hoff => ?_, fun v w hv hl hcmd harb hlen hpin => ?_⟩
  · have hzero : s.readPlace (placeOf off) = 0#32 := by
      rcases hoff with rfl | hreserved
      · rfl
      · rw [placeOf_reserved hreserved]; rfl
    exact hzero ▸ step_read hl ha
  · have h4 := aligned_of_accessFault (accessFault_of_admitted ha)
    exact (step_write hl hv ha).trans (writePlace_ignored h4 hcmd harb hlen hpin w s.advance)

/-! Writes of the payload-in window (R65). -/

/-- Byte `b` of the four a word is stored as is bits [8b+7:8b] of it (R65). -/
theorem getElem?_lanes (w : Word) {b : Nat} (hb : b < 4) :
    (lanes w)[b]? = some (BitVec.ofNat 8 (w.toNat / 2 ^ (8 * b))) := by
  rw [← laneOf_eq]
  match b, hb with
  | 0, _ | 1, _ | 2, _ | 3, _ => rfl

/-- Settles O13: the write stores the word's four lanes from PIN[4j] on. -/
theorem payloadInWindowWrite : Obligations.PayloadInWindowWrite := by
  intro s v w j hj hv hl
  have hstep := step_write hl hv (admitted_of_aligned (by omega) (by omega))
  rw [placeOf_pin (by omega)] at hstep
  refine ⟨_, hstep, fun b hb => ?_, fun a ha => ?_, rfl⟩
  · exact (readCell_memWrite_inside hb).trans (getElem?_lanes w hb)
  · exact readCell_memWrite_outside ha

/-! Reads (R72). -/

/-- Settles O15: `step_read`, with the word of the offset's place. -/
theorem readsHaveNoSideEffect : Obligations.ReadsHaveNoSideEffect := by
  intro s off x hl ha
  obtain ⟨t, ht, htemp, hframe⟩ := step_read hl ha
  exact ⟨t, _, ht, htemp, hframe⟩

/-! Accesses that are not admitted (R62). -/

theorem accessFault_misaligned {off : Nat} (h : off ≤ 0xFFF) (h4 : off % 4 ≠ 0) :
    accessFault off = some (.accessNotAdmitted off) := by
  rw [accessFault, if_neg (by omega), if_pos h4]

/-- A read at an offset with an access fault stops with it. -/
theorem step_read_fault {off : Nat} {x : Temp} {f : Fault} (hl : NextLine s (.rd off x))
    (hf : accessFault off = some f) : step s = .fault f := by
  rw [step_of_nextLine hl, runLine, hostRead, hf]

/-- A write at an offset with an access fault stops with it, whatever the word. -/
theorem step_write_fault {off : Nat} {v : Operand} {w : Word} {f : Fault} (hl : NextLine s (.wr off v))
    (hv : OperandIs s v w) (hf : accessFault off = some f) : step s = .fault f := by
  rw [step_of_nextLine hl, runLine, withOperand_of hv, hostWrite, hf]

/-- Settles O19: a misaligned offset has the access fault, and a line of another shape is that fault. -/
theorem nonAdmittedAccessStops : Obligations.NonAdmittedAccessStops := by
  intro s off hoff
  exact ⟨fun h4 _ hl => step_read_fault hl (accessFault_misaligned hoff h4),
    fun h4 _ _ hv hl => step_write_fault hl hv (accessFault_misaligned hoff h4),
    fun _ hl => step_of_nextLine hl⟩

/-! The addresses of the window (R61). -/

/-- The address that has offset `off` is that of `off`, where the window holds it. -/
theorem offsetOf_eq_some_iff {addr off : Nat} : offsetOf addr = some off ↔ addr = addressOf off ∧ off ≤ 0xFFF := by
  rw [offsetOf, addressOf, Option.ite_none_right_eq_some, Option.some_inj]
  omega

/-- Settles O53: the base is 4096 times the page, and `offsetOf_eq_some_iff` is the rest, read both ways. -/
theorem windowIsOnePageAtTheBase : Obligations.WindowIsOnePageAtTheBase :=
  ⟨Nat.mul_mod_right 4096 Config.codecBasePage, fun _ hoff => offsetOf_eq_some_iff.2 ⟨rfl, hoff⟩,
    fun _ _ => offsetOf_eq_some_iff.1⟩

end Sys2Proof.Machine
end

section
/-! SUPPORT. The decoder of the command word: which words it accepts and which it turns away, by their fields, by the
masks of R100 and by the rows of the opcode table; and the proofs of O1, O2, O5, O3, O4 and O11. -/

namespace Sys2Proof.Machine

variable {s : State} {w : Word} {i : Instr}

/-! The fields of a command's word. -/

theorem opOf_bounds (i : Instr) : 1 ≤ (opOf i).toNat ∧ (opOf i).toNat ≤ 6 := by cases i <;> simp [opOf]

/-- R is an operand of ENCODE only (R94). -/
theorem rOf_eq_false (h : opOf i ≠ 1#4) : rOf i = false := by
  cases i with
  | encode r => exact absurd rfl h
  | _ => rfl

/-- IDX is an operand of DECODE_RTR only (R94). -/
theorem idxOf_eq_zero (h : opOf i ≠ 2#4) : idxOf i = 0#5 := by
  cases i with
  | decodeRtr k => exact absurd rfl h
  | _ => rfl

@[simp] theorem opField_encode (i : Instr) : opField (encode i) = opOf i := opField_cmdw _ _ _

@[simp] theorem rField_encode (i : Instr) : rField (encode i) = rOf i := rField_cmdw _ _ _

@[simp] theorem idxField_encode (i : Instr) : idxField (encode i) = idxOf i := idxField_cmdw _ _ _

/-! Accepted words. -/

/-- A word with an operation number of R92 and every other field as R100 asks passes the decoder's checks. -/
theorem decode_eq_commandOf (hop : 1 ≤ (opField w).toNat ∧ (opField w).toNat ≤ 6) (hclear : reservedClear w = true)
    (hr : opField w ≠ 1#4 → rField w = false) (hidx : opField w ≠ 2#4 → idxField w = 0#5) :
    decode w = commandOf w := by
  have hlegal : ¬ (opField w = 0#4 ∨ 7 ≤ (opField w).toNat) := by
    rintro (h | h)
    · simp [h] at hop
    · omega
  rw [decode, if_neg hlegal, if_neg (by simp [hclear]), if_neg fun h => by simp [hr h.1] at h,
    if_neg fun h => h.2 (hidx h.1)]

/-- An operation number of R92 names a command (R92). -/
theorem exists_commandOf (hop : 1 ≤ (opField w).toNat ∧ (opField w).toNat ≤ 6) : ∃ i, commandOf w = .instr i := by
  obtain ⟨hle, hlt⟩ := hop
  unfold commandOf
  interval_cases (opField w).toNat <;> exact ⟨_, rfl⟩

/-- The operands of the command a word names are its fields R and IDX, and the index fits the five bits of IDX
(R93). -/
theorem operands_of_commandOf (h : commandOf w = .instr i) :
    WellFormed i ∧ (opField w = 1#4 → rField w = rOf i) ∧ (opField w = 2#4 → idxField w = idxOf i) := by
  unfold commandOf at h
  split at h <;> cases h
  case h_1 hop => exact ⟨rfl, fun _ => rfl, fun h => by simp [h] at hop⟩
  case h_2 hop => exact ⟨decide_eq_true (idxField w).isLt, fun h => by simp [h] at hop, fun _ => by simp [idxOf]⟩
  all_goals next hop => exact ⟨rfl, fun h => by simp [h] at hop, fun h => by simp [h] at hop⟩

theorem commandOf_encode (hi : WellFormed i) : commandOf (encode i) = .instr i := by
  cases i with
  | decodeRtr k =>
    have hk : k < 32 := of_decide_eq_true hi
    simp [commandOf, opOf, idxOf, Nat.mod_eq_of_lt hk]
  | _ => simp [commandOf, opOf, rOf]

/-- Settles O1: the fields of an encoded word are those the encoder was given, and they pass every check of R99. -/
theorem decodeOfEncodeIsTheCommand : Obligations.DecodeOfEncodeIsTheCommand := by
  intro i hi
  calc decode (encode i) = commandOf (encode i) :=
        decode_eq_commandOf (by simpa using opOf_bounds i) (reservedClear_cmdw _ _ _)
          (by simpa using rOf_eq_false) (by simpa using idxOf_eq_zero)
    _ = .instr i := commandOf_encode hi

/-- The command of an accepted word is the one its fields name. -/
theorem commandOf_of_decode (h : decode w = .instr i) : commandOf w = .instr i := by
  unfold decode at h
  split_ifs at h
  exact h

/-- Settles O2: an accepted word has clear reserved bits, so its fields make it up, and they are those of its command. -/
theorem acceptedWordIsTheEncoding : Obligations.AcceptedWordIsTheEncoding := by
  intro w i h
  obtain ⟨hop, hclear, hr, hidx⟩ := decode_instr h
  obtain ⟨hwf, hrOp, hidxOp⟩ := operands_of_commandOf (commandOf_of_decode h)
  have hrField : rField w = rOf i := by
    by_cases h1 : opField w = 1#4
    · exact hrOp h1
    · rw [hr h1, rOf_eq_false (hop ▸ h1)]
  have hidxField : idxField w = idxOf i := by
    by_cases h2 : opField w = 2#4
    · exact hidxOp h2
    · rw [hidx h2, idxOf_eq_zero (hop ▸ h2)]
  refine ⟨hwf, ?_⟩
  rw [encode, ← hop, ← hrField, ← hidxField]
  exact (eq_cmdw_of_reservedClear hclear).symm

/-- The words of DECODE_RTR as R92 writes them. -/
theorem encode_decodeRtr : ∀ k, k < 32 → encode (.decodeRtr k) = BitVec.ofNat 32 (2 + k * 2 ^ 16) := by decide

/-- Settles O5: each of the words is the encoding of its command, so O1 gives the command back. -/
theorem wordsOfTheSixCommands : Obligations.WordsOfTheSixCommands := by
  have hdecode := decodeOfEncodeIsTheCommand
  refine ⟨hdecode (.encode false) rfl, hdecode (.encode true) rfl, fun k hk => ?_, hdecode .extractPayload rfl,
    hdecode .setExtHeader rfl, hdecode .send rfl, hdecode .receive rfl⟩
  exact encode_decodeRtr k hk ▸ hdecode (.decodeRtr k) (decide_eq_true hk)

/-! Words turned away. -/

/-- OP is 0 or 7 to 15 (R101). -/
def HasReservedOp (w : Word) : Prop := w.toNat % 16 = 0 ∨ 7 ≤ w.toNat % 16

/-- A reserved bit is set, or R outside ENCODE, or IDX is nonzero outside DECODE_RTR (R100). -/
def HasReservedField (w : Word) : Prop :=
  (w &&& 0xFFE0FEF0#32) ≠ 0#32 ∨ (w.toNat % 16 ≠ 1 ∧ w.getLsbD 8 = true) ∨
    (w.toNat % 16 ≠ 2 ∧ (w &&& 0x001F0000#32) ≠ 0#32)

theorem opField_toNat (w : Word) : (opField w).toNat = w.toNat % 16 := by simp [opField]

theorem opField_eq_iff (op : BitVec 4) : opField w = op ↔ w.toNat % 16 = op.toNat := by
  rw [← BitVec.toNat_inj, opField_toNat]

/-- A field is 0 just when each of its bits is. -/
theorem extractLsb'_eq_zero_iff {start len : Nat} :
    w.extractLsb' start len = 0#len ↔ ∀ k, start ≤ k → k < start + len → w.getLsbD k = false := by
  constructor
  · intro h k hk hlt
    have hbit := congrArg (fun v => v.getLsbD (k - start)) h
    simpa [show k - start < len by omega, Nat.add_sub_cancel' hk] using hbit
  · intro h
    ext k hk
    simpa using h (start + k) (by omega) (by omega)

/-- The masked word is 0 just when the word is 0 at every bit of the mask. -/
theorem and_mask_eq_zero_iff {m : Word} :
    w &&& m = 0#32 ↔ ∀ k, k < 32 → m.getLsbD k = true → w.getLsbD k = false := by
  constructor
  · intro h k _ hm
    have hbit := congrArg (fun v => v.getLsbD k) h
    simpa [hm] using hbit
  · intro h
    refine BitVec.eq_of_getLsbD_eq fun k hk => ?_
    rw [BitVec.getLsbD_and, BitVec.getLsbD_zero]
    cases hm : m.getLsbD k with
    | false => exact Bool.and_false _
    | true => rw [h k hk hm, Bool.false_and]

theorem idxField_eq_zero_iff : idxField w = 0#5 ↔ w &&& 0x001F0000#32 = 0#32 := by
  have hmask : ∀ k, k < 32 → ((0x001F0000#32).getLsbD k = true ↔ 16 ≤ k ∧ k < 16 + 5) := by decide
  rw [idxField, extractLsb'_eq_zero_iff, and_mask_eq_zero_iff]
  constructor
  · intro h k hk hm
    obtain ⟨hle, hlt⟩ := (hmask k hk).1 hm
    exact h k hle hlt
  · intro h k hle hlt
    exact h k (by omega) ((hmask k (by omega)).2 ⟨hle, hlt⟩)

theorem reservedClear_iff : reservedClear w = true ↔ w &&& 0xFFE0FEF0#32 = 0#32 := by
  have hmask : ∀ k, k < 32 →
      ((0xFFE0FEF0#32).getLsbD k = true ↔ 21 ≤ k ∨ (9 ≤ k ∧ k < 16) ∨ (4 ≤ k ∧ k < 8)) := by decide
  rw [and_mask_eq_zero_iff]
  constructor
  · intro h k hk hm
    exact reserved_bits h k hk ((hmask k hk).1 hm)
  · intro h
    have hzero (k : Nat) (hk : k < 32) (hr : 21 ≤ k ∨ (9 ≤ k ∧ k < 16) ∨ (4 ≤ k ∧ k < 8)) : w.getLsbD k = false :=
      h k hk ((hmask k hk).2 hr)
    simp only [reservedClear, Bool.and_eq_true, beq_iff_eq, extractLsb'_eq_zero_iff]
    exact ⟨⟨fun k _ _ => hzero k (by omega) (by omega), fun k _ _ => hzero k (by omega) (by omega)⟩,
      fun k _ _ => hzero k (by omega) (by omega)⟩

theorem hasReservedOp_iff : HasReservedOp w ↔ opField w = 0#4 ∨ 7 ≤ (opField w).toNat := by
  rw [opField_eq_iff, opField_toNat]
  rfl

theorem hasReservedField_iff : HasReservedField w ↔
    reservedClear w = false ∨ (opField w ≠ 1#4 ∧ rField w = true) ∨ (opField w ≠ 2#4 ∧ idxField w ≠ 0#5) := by
  rw [← Bool.not_eq_true, reservedClear_iff, Ne, Ne, Ne, opField_eq_iff, opField_eq_iff, idxField_eq_zero_iff]
  rfl

/-- The decoder looks at OP first (R101). -/
theorem decode_of_reservedOp (h : HasReservedOp w) : decode w = .rejected .reservedOp := by
  rw [decode, if_pos (hasReservedOp_iff.1 h)]

/-- With OP 1 to 6 the decoder looks at the other fields (R100). -/
theorem decode_of_reservedField (hop : ¬ HasReservedOp w) (h : HasReservedField w) :
    decode w = .rejected .reservedField := by
  rw [decode, if_neg (mt hasReservedOp_iff.2 hop)]
  rcases hasReservedField_iff.1 h with hclear | hr | hidx
  · rw [if_pos hclear]
  · rw [if_pos hr, ite_self]
  · rw [if_pos hidx, ite_self, ite_self]

theorem opField_bounds_of_not_reservedOp (hop : ¬ HasReservedOp w) :
    1 ≤ (opField w).toNat ∧ (opField w).toNat ≤ 6 := by
  rw [opField_toNat]
  rw [HasReservedOp] at hop
  omega

/-- A word with no reserved value in any field names a command (R99). -/
theorem decode_of_not_reserved (hop : ¬ HasReservedOp w) (h : ¬ HasReservedField w) : ∃ i, decode w = .instr i := by
  rw [hasReservedField_iff] at h
  simp only [not_or, not_and, Bool.not_eq_false, Bool.not_eq_true, not_not] at h
  obtain ⟨hclear, hr, hidx⟩ := h
  have hbounds := opField_bounds_of_not_reservedOp hop
  rw [decode_eq_commandOf hbounds hclear hr hidx]
  exact exists_commandOf hbounds

/-- Settles O3: a word has a reserved OP, or else a reserved field, or else names a command. -/
theorem rejectedWordsAreTheReservedOnes : Obligations.RejectedWordsAreTheReservedOnes := by
  intro w
  have hlegal : (1 ≤ w.toNat % 16 ∧ w.toNat % 16 ≤ 6) ↔ ¬ HasReservedOp w := by rw [HasReservedOp]; omega
  rw [hlegal]
  change (_ ↔ HasReservedOp w) ∧ (_ ↔ ¬ HasReservedOp w ∧ HasReservedField w) ∧ _
  by_cases hop : HasReservedOp w
  · simp [decode_of_reservedOp hop, hop]
  by_cases hfield : HasReservedField w
  · simp [decode_of_reservedField hop hfield, hop, hfield]
  · obtain ⟨i, hi⟩ := decode_of_not_reserved hop hfield
    simp [hi, hop, hfield]

/-! A reserved word as a command (R100, R101). -/

/-- A CMD write of a word the decoder turns away ends in its precondition fault (R204). -/
theorem step_of_rejected {v : Operand} {c : Cause} (hl : NextLine s (.wr 0x000 v)) (hv : OperandIs s v w)
    (hd : decode w = .rejected c) :
    ∃ t, step s = .next t ∧ EndedWith (.precondFault c) (2#32 + (causeNumber c <<< 8)) 0#32 s t ∧
      OnlyOutcomeWritten { s with host := { s.host with pos := s.host.pos + 1 } } t := by
  have hissue : issueCommand w s.advance = .next (s.advance.endWith (.precondFault c)) := by rw [issueCommand, hd]
  exact ⟨_, (step_write hl hv rfl).trans hissue, ⟨statusWord_precondFault c, rfl, rfl⟩, rfl⟩

/-- Settles O11: the decoder turns the word away, and `step_of_rejected` says what the write then does. -/
theorem reservedWordEndsInPrecondFault : Obligations.ReservedWordEndsInPrecondFault := by
  intro s v w hl hv
  refine ⟨fun hop => step_of_rejected hl hv (decode_of_reservedOp hop), fun hop hfield => ?_⟩
  have hlegal : ¬ HasReservedOp w := by rw [HasReservedOp]; omega
  exact step_of_rejected hl hv (decode_of_reservedField hlegal hfield)

/-! The rows of the opcode table (R92, R94). -/

/-- A word that has a row's fixed bits agrees with its pattern in every bit the mask covers. -/
theorem and_eq_of_hits {m p : Word} (h : (opRow i).hits w = true) (hmask : (opRow i).mask &&& m = m)
    (hpattern : (opRow i).pattern &&& m = p) : w &&& m = p := by
  have hrow : w &&& (opRow i).mask = (opRow i).pattern := beq_iff_eq.1 h
  rw [← hpattern, ← hrow, BitVec.and_assoc, hmask]

theorem tableRow_encode (i : Instr) : Laws.TableRow.Statement i := by
  cases i with
  | encode r => exact Laws.TableRow.encode r
  | decodeRtr k => exact Laws.TableRow.decodeRtr k
  | extractPayload => exact Laws.TableRow.extractPayload
  | setExtHeader => exact Laws.TableRow.setExtHeader
  | send => exact Laws.TableRow.send
  | receive => exact Laws.TableRow.receive

/-- Every row fixes OP, at its command's operation number (R92). -/
theorem opField_of_hits (h : (opRow i).hits w = true) : w.toNat % 16 = (opOf i).toNat := by
  have hop : w &&& 0x0000000F#32 = (opOf i).setWidth 32 :=
    and_eq_of_hits h (by cases i <;> simp only [opRow] <;> decide) (by cases i <;> simp only [opRow, opOf] <;> decide)
  calc w.toNat % 16 = (w &&& 0x0000000F#32).toNat := (Nat.and_two_pow_sub_one_eq_mod w.toNat 4).symm
    _ = (opOf i).toNat := by rw [hop, BitVec.toNat_setWidth_of_le (by decide)]

/-- Every row fixes the reserved bits at 0 (R94). -/
theorem reserved_of_hits (h : (opRow i).hits w = true) : w &&& 0xFFE0FEF0#32 = 0#32 :=
  and_eq_of_hits h (by cases i <;> simp only [opRow] <;> decide) (by cases i <;> simp only [opRow] <;> decide)

/-- Every row but that of ENCODE fixes R at 0 (R94). -/
theorem rField_of_hits (h : (opRow i).hits w = true) (hi : opOf i ≠ 1#4) : w &&& 0x00000100#32 = 0#32 := by
  cases i with
  | encode r => exact absurd rfl hi
  | _ => exact and_eq_of_hits h (by simp only [opRow]; decide) (by simp only [opRow]; decide)

/-- Every row but that of DECODE_RTR fixes IDX at 0 (R94). -/
theorem idxField_of_hits (h : (opRow i).hits w = true) (hi : opOf i ≠ 2#4) : w &&& 0x001F0000#32 = 0#32 := by
  cases i with
  | decodeRtr k => exact absurd rfl hi
  | _ => exact and_eq_of_hits h (by simp only [opRow]; decide) (by simp only [opRow]; decide)

theorem not_hasReservedField_of_hits (h : (opRow i).hits w = true) : ¬ HasReservedField w := by
  have hop : opField w = opOf i := (opField_eq_iff _).2 (opField_of_hits h)
  rintro (hclear | ⟨h1, hr⟩ | ⟨h2, hidx⟩)
  · exact hclear (reserved_of_hits h)
  · have hzero := rField_of_hits h (hop ▸ mt (opField_eq_iff _).1 h1)
    have hbit := and_mask_eq_zero_iff.1 hzero 8 (by decide) (by decide)
    exact absurd (hr.symm.trans hbit) (by decide)
  · exact hidx (idxField_of_hits h (hop ▸ mt (opField_eq_iff _).1 h2))

/-- A command's row is given by its operation number (R92, R94). -/
theorem opRow_eq (i : Instr) : opRow i =
    ⟨(opOf i).setWidth 32,
      if opOf i = 1#4 then 0xFFFFFEFF#32 else if opOf i = 2#4 then 0xFFE0FFFF#32 else 0xFFFFFFFF#32⟩ := by
  cases i <;> rfl

/-- A word of a command's row decodes to a command of that row. -/
theorem decode_of_hits (h : (opRow i).hits w = true) : ∃ j, decode w = .instr j ∧ opRow j = opRow i := by
  have hop := opField_of_hits h
  have hbounds := opOf_bounds i
  have hlegal : ¬ HasReservedOp w := by rw [HasReservedOp]; omega
  obtain ⟨j, hj⟩ := decode_of_not_reserved hlegal (not_hasReservedField_of_hits h)
  obtain ⟨hopj, -⟩ := decode_instr hj
  have hsame : opOf j = opOf i := hopj.symm.trans ((opField_eq_iff _).2 hop)
  exact ⟨j, hj, by rw [opRow_eq j, hsame, ← opRow_eq i]⟩

/-- Settles O4: an accepted word is an encoding, which has the fixed bits of its row; and a word of two rows would
decode to a command of each. -/
theorem decoderAgreesWithOpcodeTable : Obligations.DecoderAgreesWithOpcodeTable := by
  refine ⟨fun w i h => ?_, fun w i => decode_of_hits, fun w i j hi hj => ?_⟩
  · obtain ⟨hwf, rfl⟩ := acceptedWordIsTheEncoding w i h
    exact tableRow_encode i hwf
  · obtain ⟨a, ha, hrowi⟩ := decode_of_hits hi
    obtain ⟨b, hb, hrowj⟩ := decode_of_hits hj
    obtain rfl : a = b := Decoded.instr.inj (ha.symm.trans hb)
    exact hrowi.symm.trans hrowj

end Sys2Proof.Machine
end

section
/-! SUPPORT. The host's own lines: what each does to the temporaries and to the host's place, and the proofs of O21, O20
and O22. -/

namespace Sys2Proof.Machine

variable {s : State}

/-! Branches (R103). -/

/-- A branch to a label that one line alone defines goes to that line. -/
theorem branch_of_unique {l : Label} {n : Nat} (h : s.host.program[n]? = some (.label l))
    (hu : ∀ m, s.host.program[m]? = some (.label l) → m = n) : branch l s = .next (s.goTo n) := by
  rw [branch, findLabel_of_unique h hu, Nat.zero_add]

/-- Settles O21: the two operands have their values, and the branch goes to the label's one line. -/
theorem hostBranchLines : Obligations.HostBranchLines := by
  intro s x v l a b n ha hb hn hu
  have hbranch : branch l s = .next (s.goTo n) := branch_of_unique hn hu
  constructor
  · intro hl
    rw [step_of_nextLine hl, runLine, withTemp_of_read ha, withOperand_of hb]
    split_ifs
    · exact hbranch
    · rfl
  · intro hl
    rw [step_of_nextLine hl, runLine, withTemp_of_read ha, withOperand_of hb]
    split_ifs
    · rfl
    · exact hbranch

/-! Lines that set a temporary (R103). -/

/-- The host at its next line with temporary `x` set: what MOV, ADD and AND end in. -/
theorem lineSetsOnly_setTemp (s : State) (x : Temp) (w : Word) :
    readTemp (s.advance.setTemp x w).host.temps x = some w ∧ LineSetsOnly x s (s.advance.setTemp x w) :=
  ⟨readTemp_writeTemp_same _ _ _, fun _ hy => readTemp_writeTemp_other hy, rfl⟩

/-- Settles O20: MOV, ADD and AND each end in `State.setTemp` with their value; a label and HALT read nothing. -/
theorem hostDataLines : Obligations.HostDataLines := by
  intro s x y v a b hb
  refine ⟨fun hl => ?_, fun ha => ⟨fun hl => ?_, fun hl => ?_⟩, fun l hl => step_of_nextLine hl, step_of_nextLine⟩
  · obtain ⟨hx, hframe⟩ := lineSetsOnly_setTemp s x b
    refine ⟨_, ?_, hx, hframe⟩
    rw [step_of_nextLine hl, runLine, withOperand_of hb]
  · obtain ⟨hx, hframe⟩ := lineSetsOnly_setTemp s x (a + b)
    refine ⟨_, a + b, ?_, hx, BitVec.toNat_add a b, hframe⟩
    rw [step_of_nextLine hl, runLine, withTemp_of_read ha, withOperand_of hb]
  · obtain ⟨hx, hframe⟩ := lineSetsOnly_setTemp s x (a &&& b)
    refine ⟨_, ?_, hx, hframe⟩
    rw [step_of_nextLine hl, runLine, withTemp_of_read ha, withOperand_of hb]

/-! Temporaries that have not been written (R103). -/

theorem withTemp_unwritten {x : Temp} (go : Word → Result) (h : readTemp s.host.temps x = none) :
    withTemp x s go = .fault (.tempUnwritten x) := by rw [withTemp, h]

/-- Settles O22: each line reads `x` before it does anything else, but for a first operand that has its value. -/
theorem unwrittenTemporaryFaults : Obligations.UnwrittenTemporaryFaults := by
  intro s x hx
  have hfault (go : Word → Result) : withTemp x s go = .fault (.tempUnwritten x) := withTemp_unwritten go hx
  refine ⟨fun off hl => ?_, fun y hl => ?_, fun y v hl => ?_, fun y z a hz hl => ?_, fun v l hl => ?_,
    fun z a l hz hl => ?_⟩
  · exact (step_of_nextLine hl).trans (hfault _)
  · exact (step_of_nextLine hl).trans (hfault _)
  · rcases hl with hl | hl <;> exact (step_of_nextLine hl).trans (hfault _)
  · rcases hl with hl | hl <;>
      exact (step_of_nextLine hl).trans ((withTemp_of_read hz).trans (hfault _))
  · rcases hl with hl | hl <;> exact (step_of_nextLine hl).trans (hfault _)
  · rcases hl with hl | hl <;>
      exact (step_of_nextLine hl).trans ((withTemp_of_read hz).trans (hfault _))

end Sys2Proof.Machine
end

section
/-! SUPPORT. What ENCODE, DECODE_RTR and EXTRACT_PAYLOAD end in and leave in the buffer, RESULT, OUT_LEN and POUT, and
the proofs of the statements of 40_codec.md: O23 to O26, O28 to O32, O40 to O43 and O51. -/

namespace Sys2Proof.Machine

variable {s t : State} {i : Instr}

/-! The ends of a command. -/

theorem endedWith_ok {u : State} (h : u.record = s.record) : EndedWith .ok 0#32 0#32 s (u.endWith .ok) :=
  ⟨statusWord_ok, rfl, congrArg (CmdOutcome.ok :: ·) h⟩

/-- A command that ends in a precondition fault and does nothing else meets R204. -/
theorem exec_of_precondFault {c : Cause} (h : exec i s = .next (s.endWith (.precondFault c))) :
    ∃ t, exec i s = .next t ∧ EndedWith (.precondFault c) (2#32 + (causeNumber c <<< 8)) 0#32 s t ∧
      OnlyOutcomeWritten s t :=
  ⟨_, h, ⟨statusWord_precondFault c, rfl, rfl⟩, rfl⟩

/-- FB_INFO of a valid buffer: VALID in bit 8 above LEN (R27). -/
theorem fbInfoWord_valid {n : Nat} (h : n ≤ Config.canBufferSize) :
    fbInfoWord true n = BitVec.ofNat 32 (0x100 + n) := by
  have hn : n ≤ 25 := h
  have hword : (fbInfoWord true n).toNat = n + 256 := fbInfoWord_toNat true (by omega)
  refine BitVec.eq_of_toNat_eq ?_
  rw [hword, BitVec.toNat_ofNat]
  omega

/-- Settles O23: the legality of the ID is ENCODE's first check, and in extended mode it never fails, so that no end
but OK and ABORTED is left. -/
theorem encodeChecksItsIdFirst : Obligations.EncodeChecksItsIdFirst := by
  refine ⟨fun s r hstd hid => ?_, fun s r hext => ?_⟩
  · exact exec_of_precondFault (execEncode_illegal ((idLegal_eq_false_iff _ _).2 ⟨hstd, hid⟩))
  · have hlegal : idLegal s.hdrExt s.arbId = true := (idLegal_iff _ _).2 (.inl hext)
    have hok : statusWord (statusOf .ok) ≠ 0x302#32 := by decide
    have habort : statusWord (statusOf .aborted) ≠ 0x302#32 := by decide
    obtain ⟨t, ht⟩ := exec_total (.encode r) s
    refine ⟨t, ht, ?_⟩
    rcases execEncode_next ht with ⟨hillegal, _⟩ | ⟨_, _, rfl⟩ | ⟨_, _, _, _, _, rfl⟩ | ⟨_, _, _, rfl⟩
    · exact absurd (hlegal.symm.trans hillegal) (by decide)
    · exact hok
    · exact hok
    · exact habort

/-! ENCODE on the RTR path. -/

/-- Settles O24: the RTR path replaces the buffer by `rtrBatch`, which is built from the ID alone. -/
theorem encodeRtrBuildsOneFrame : Obligations.EncodeRtrBuildsOneFrame := by
  intro s hlegal
  exact ⟨_, execEncode_rtr hlegal, endedWith_ok rfl, ⟨rtrFrame s, rfl, rfl, dlcByte_rtr, rfl⟩,
    fbInfoWord_valid (rtrBatch s).bound, fun n p => ⟨_, execEncode_rtr hlegal, rfl, endedWith_ok rfl⟩⟩

theorem execEncode_rtr_of_ok (h : execEncode true s = .next t) (hok : t.readPlace .status = 0#32) :
    t = (s.replaceFB (rtrBatch s)).endWith .ok := by
  rcases execEncode_next h with ⟨_, rfl⟩ | ⟨_, _, ht⟩ | ⟨_, hr, _⟩ | ⟨_, hr, _⟩
  · cases (readPlace_status_endWith_eq_zero_iff _ _).1 hok
  · exact ht
  · cases hr
  · cases hr

/-! ENCODE on the data path. -/

theorem execEncode_data_of_ok (h : execEncode false s = .next t) (hok : t.readPlace .status = 0#32) :
    ∃ b : Batch, b.frames = dataFrames s ∧ t = (s.drawn.replaceFB b).endWith .ok := by
  rcases execEncode_next h with ⟨_, rfl⟩ | ⟨_, hr, _⟩ | ⟨_, _, _, hb⟩ | ⟨_, _, _, rfl⟩
  · cases (readPlace_status_endWith_eq_zero_iff _ _).1 hok
  · cases hr
  · exact hb
  · cases (readPlace_status_endWith_eq_zero_iff _ _).1 hok

theorem chunkLen_of_frameCount {n x m : Nat} (h : m = frameCount n) :
    chunkLen n x = if x + 1 = m ∧ 0 < n % 8 then n % 8 else 8 := by rw [chunkLen_eq, h]

theorem eq_dataFrame_of_getElem? {x : Nat} {f : Frame} (h : (dataFrames s)[x]? = some f) : f = dataFrame s x := by
  obtain ⟨hx, -⟩ := List.getElem?_eq_some_iff.1 h
  rw [length_dataFrames] at hx
  exact Option.some.inj (h.symm.trans (getElem?_dataFrames hx))

/-- Frame `x` holds the written bytes of its chunk of PIN (R136). -/
theorem dataFrame_byte {x j : Nat} {v : Byte} (hj : j < chunkLen s.payloadLength x)
    (hv : readCell s.pin (8 * x + j) = some v) : (dataFrame s x).data.toList[j]? = some v := by
  have hlen := length_memRead s.pin s.draws (8 * x) (chunkLen s.payloadLength x)
  calc (dataFrame s x).data.toList[j]?
      = (memRead s.pin s.draws (8 * x) (chunkLen s.payloadLength x))[j]? :=
        padData_byte (hlen.trans_le (chunkLen_bounds _ _).2) (hj.trans_eq hlen.symm)
    _ = some (byteAt s.pin s.draws (8 * x + j)) := getElem?_memRead hj
    _ = some v := by rw [byteAt_of_readCell hv]

/-- After its chunk frame `x` holds zeros (R137). -/
theorem dataFrame_pad {x j : Nat} (hj : chunkLen s.payloadLength x ≤ j) (h8 : j < 8) :
    (dataFrame s x).data.toList[j]? = some 0#8 :=
  padData_pad ((length_memRead _ _ _ _).trans_le hj) h8

/-- Settles O25: the frames are `dataFrames`, and each is its chunk's `dataFrame`. -/
theorem encodeDataBuildsTheFrames : Obligations.EncodeDataBuildsTheFrames := by
  intro s hlegal hn
  obtain ⟨b, hb, hexec⟩ := execEncode_data hlegal hn
  have hlen : b.frames.length = frameCount s.payloadLength := by rw [hb, length_dataFrames]
  refine ⟨_, hexec, endedWith_ok rfl, hlen, fbInfoWord_valid b.bound, rfl, rfl, fun x f hf => ?_⟩
  obtain rfl : f = dataFrame s x := eq_dataFrame_of_getElem? (hb ▸ hf)
  exact ⟨chunkLen s.payloadLength x, chunkLen_of_frameCount hlen, rfl, dlcByte_false _, fun j v => dataFrame_byte,
    fun j => dataFrame_pad⟩

/-- Settles O26: the frame count passes 25 just when the length passes 200, and ENCODE then ends through InvalidateFB,
whatever PIN holds. -/
theorem encodeAbortsAboveCapacity : Obligations.EncodeAbortsAboveCapacity := by
  intro s hlegal
  refine ⟨?_, fun hn => ⟨_, execEncode_abort hlegal hn, ⟨statusWord_aborted, rfl, rfl⟩, ?_, rfl, rfl, rfl, rfl,
    fun p => execEncode_abort hlegal hn⟩⟩
  · have hcapacity := not_congr (frameCount_le_iff s.payloadLen.toNat)
    rwa [frameCount_eq, Nat.not_le, Nat.not_le] at hcapacity
  · exact (by decide : fbInfoWord false 0 = 0#32)

/-! DECODE_RTR. -/

/-- Settles O28: RESULT is bit 4 of the DLC byte of the slot. -/
theorem decodeRtrGivesBitFour : Obligations.DecodeRtrGivesBitFour := by
  intro s k f hv hf
  exact ⟨_, execDecodeRtr_valid hv hf, endedWith_ok rfl, (flagWord_toNat _).trans (dlcIsRtr_toNat _), rfl⟩

/-- Settles O29: an index of 25 or more is not below LEN, which is at most 25. -/
theorem decodeRtrIndexOutOfRange : Obligations.DecodeRtrIndexOutOfRange := by
  intro s k hv hk
  have hbound : s.fb.frames.length ≤ 25 := s.fb.bound
  exact exec_of_precondFault (execDecodeRtr_range hv (by omega))

/-- Settles O30: the buffer check is the first of each of the three commands. -/
theorem noValidBufferFaults : Obligations.NoValidBufferFaults := by
  intro s i hv hi
  have hfault : exec i s = .next (s.endWith (.precondFault .noValidBuffer)) := by
    rcases hi with rfl | rfl | ⟨k, rfl⟩
    · exact execExtractPayload_noBuffer hv
    · exact execSend_noBuffer hv
    · exact execDecodeRtr_noBuffer hv
  obtain ⟨t, ht, hend, honly⟩ := exec_of_precondFault hfault
  exact ⟨t, ht, hend, honly, congrArg (·.transport.calls) honly⟩

/-- Settles O41: the buffer holds `rtrFrame` alone, whose DLC byte is 0x10. -/
theorem rtrEncodeThenDecodeIsOne : Obligations.RtrEncodeThenDecodeIsOne := by
  intro s t h hok
  obtain rfl := execEncode_rtr_of_ok h hok
  have hslot : ((s.replaceFB (rtrBatch s)).endWith .ok).fb.frames[0]? = some (rtrFrame s) := rfl
  have hrtr : dlcIsRtr (rtrFrame s).dlc = true := (congrArg dlcIsRtr dlcByte_rtr).trans (by decide)
  refine ⟨fbInfoWord_valid (rtrBatch s).bound, fun f hf => ?_, _, execDecodeRtr_valid rfl hslot,
    statusWord_ok, congrArg flagWord hrtr⟩
  obtain rfl : f = rtrFrame s := List.mem_singleton.1 hf
  exact congrArg (·.toNat % 16) dlcByte_rtr

/-- Settles O42: the DLC byte of a frame of the data path is its chunk's length, whose bit 4 is 0. -/
theorem dataEncodeThenDecodeIsZero : Obligations.DataEncodeThenDecodeIsZero := by
  intro s t k h hok hk
  obtain ⟨b, hb, rfl⟩ := execEncode_data_of_ok h hok
  have hslot : b.frames[k]? = some (dataFrame s k) := by
    have hcount : k < frameCount s.payloadLength := by rwa [← length_dataFrames, ← hb]
    rw [hb, getElem?_dataFrames hcount]
  have hrtr : dlcIsRtr (dataFrame s k).dlc = false := dlcIsRtr_dlcByte_false (chunkLen_bounds _ _).2
  exact ⟨_, execDecodeRtr_valid rfl hslot, statusWord_ok, congrArg flagWord hrtr⟩

/-! Multiples of 8 bytes (R159). -/

theorem dlc_dataFrame_of_dvd {f : Frame} (h8 : s.payloadLength % 8 = 0) (hf : f ∈ dataFrames s) : f.dlc = 8#8 := by
  obtain ⟨x, -, rfl⟩ := mem_dataFrames.1 hf
  have hchunk : chunkLen s.payloadLength x = 8 := by
    rw [chunkLen_eq, if_neg]
    omega
  rw [dataFrame, hchunk, dlcByte_false]

/-- Settles O43: a length of 8k leaves no remainder, so there are k frames and each chunk is a full one. -/
theorem multipleOfEightMakesFullFrames : Obligations.MultipleOfEightMakesFullFrames := by
  intro s hlegal
  refine ⟨fun k _ hk hn => ?_, fun hn => ⟨_, execEncode_abort hlegal hn, statusWord_aborted, rfl⟩⟩
  have hlen : s.payloadLength = 8 * k := hn
  obtain ⟨b, hb, hexec⟩ := execEncode_data hlegal (by omega)
  have hcount : frameCount s.payloadLength = k := by
    rw [frameCount_eq, if_neg] <;> omega
  refine ⟨_, hexec, statusWord_ok, ?_, fun f hf => dlc_dataFrame_of_dvd (by omega) (hb ▸ hf)⟩
  exact (congrArg List.length hb).trans ((length_dataFrames s).trans hcount)

/-! EXTRACT_PAYLOAD. -/

/-- Settles O32: one frame with a length field above 8 is enough for the check of the batch to fail. -/
theorem extractRefusesMalformedLengths : Obligations.ExtractRefusesMalformedLengths := by
  intro s f hv hf h9
  have hmalformed : allWellFormed s.fb.frames = false := by
    rw [← Bool.not_eq_true, allWellFormed_iff]
    exact fun hall => absurd (hall f hf) (by omega)
  exact exec_of_precondFault (execExtractPayload_malformed hv hmalformed)

/-- Settles O31: EXTRACT_PAYLOAD stores `batchBytes`, which is that concatenation. -/
theorem extractConcatenatesTheBatch : Obligations.ExtractConcatenatesTheBatch := by
  intro s hv hw
  have hexec := execExtractPayload_valid hv ((allWellFormed_iff _).2 hw)
  have hcount := toNat_extractedCount s.fb
  refine ⟨_, batchBytes s.fb.frames, hexec, endedWith_ok rfl, batchBytes_eq_flatten _,
    (outLenWord_toNat _).trans hcount, length_batchBytes_batch _, fun i hi => ?_, rfl⟩
  exact readCell_pout_of_ok hexec statusWord_ok (hi.trans_eq hcount.symm)

/-- Settles O40: ENCODE's frames together carry the payload (`batchBytes_dataFrames`), and EXTRACT_PAYLOAD stores what
they carry. -/
theorem roundTripGivesThePayloadBack : Obligations.RoundTripGivesThePayloadBack := by
  intro s hlegal hn hpin
  obtain ⟨b, hb, hencode⟩ := execEncode_data hlegal hn
  have hbytes : batchBytes b.frames = memRead s.pin s.draws 0 s.payloadLength := by rw [hb, batchBytes_dataFrames]
  have hextract := execExtractPayload_valid (s := (s.drawn.replaceFB b).endWith .ok) rfl
    ((congrArg allWellFormed hb).trans (allWellFormed_dataFrames s))
  have hcount : (BitVec.ofNat 8 (batchBytes b.frames).length).toNat = s.payloadLength := by
    rw [toNat_extractedCount, hbytes, length_memRead]
  refine ⟨_, _, hencode, statusWord_ok, hextract, statusWord_ok, (outLenWord_toNat _).trans hcount,
    fun i (hi : i < s.payloadLength) => ?_⟩
  obtain ⟨v, hv⟩ := Option.ne_none_iff_exists'.1 (hpin i hi)
  calc readCell _ i = (batchBytes b.frames)[i]? :=
        readCell_pout_of_ok hextract statusWord_ok (hi.trans_eq hcount.symm)
    _ = some (byteAt s.pin s.draws (0 + i)) := by rw [hbytes, getElem?_memRead hi]
    _ = readCell s.pin i := by rw [Nat.zero_add, byteAt_of_readCell hv, hv]

/-! Decoding again. -/

/-- Storing the same bytes at the same place again changes nothing. -/
theorem readCell_memWrite_again (m : Memory) (bytes : List Byte) (a : Nat) :
    readCell (memWrite (memWrite m 0 bytes) 0 bytes) a = readCell (memWrite m 0 bytes) a := by
  by_cases ha : a < bytes.length
  · have hread (m' : Memory) : readCell (memWrite m' 0 bytes) a = bytes[a]? := by
      rw [← readCell_memWrite_inside ha, Nat.zero_add]
    rw [hread, hread]
  · exact readCell_memWrite_outside (by omega)

/-- Settles O51: neither command writes the buffer it reads, so the second run is in the same case as the first. -/
theorem decodingCanBeRepeated : Obligations.DecodingCanBeRepeated := by
  rintro s t i (rfl | ⟨k, rfl⟩) h hok
  · rcases execExtractPayload_next h with ⟨_, rfl⟩ | ⟨_, _, rfl⟩ | ⟨hv, hw, rfl⟩
    · cases (readPlace_status_endWith_eq_zero_iff _ _).1 hok
    · cases (readPlace_status_endWith_eq_zero_iff _ _).1 hok
    · exact ⟨_, execExtractPayload_valid hv hw, statusWord_ok, rfl, rfl, readCell_memWrite_again _ _⟩
  · rcases execDecodeRtr_next h with ⟨_, rfl⟩ | ⟨_, _, rfl⟩ | ⟨hv, f, hf, rfl⟩
    · cases (readPlace_status_endWith_eq_zero_iff _ _).1 hok
    · cases (readPlace_status_endWith_eq_zero_iff _ _).1 hok
    · exact ⟨_, execDecodeRtr_valid hv hf, statusWord_ok, rfl, rfl, fun _ => rfl⟩

end Sys2Proof.Machine
end

section
/-! SUPPORT. The calls the boundary commands make on the transport port and how each follows its answer, and the proofs
of the statements of 41_boundary.md: O47 and O33 to O36. -/

namespace Sys2Proof.Machine

variable {s t : State}

/-! The calls on the transport port (R170). -/

theorem execSetExtHeader_calls (h : execSetExtHeader s = .next t) :
    t.transport.calls = .setExtendedHeader :: s.transport.calls := by
  rcases execSetExtHeader_next h with ⟨_, rfl⟩ | ⟨_, _, rfl⟩ <;> rfl

theorem execReceive_calls (h : execReceive s = .next t) :
    t.transport.calls = .receive 25 :: s.transport.calls := by
  rcases execReceive_next h with ⟨_, _, rfl⟩ | ⟨_, _, rfl⟩ <;> rfl

theorem execSend_calls (hv : s.fbValid = true) (h : execSend s = .next t) :
    t.transport.calls = .send s.fb.frames :: s.transport.calls := by
  rcases execSend_next h with ⟨hinvalid, _⟩ | ⟨_, _, rfl⟩ | ⟨_, _, _, rfl⟩
  · exact absurd (hv.symm.trans hinvalid) (by decide)
  · rfl
  · rfl

/-- SEND without a valid buffer makes no call (R178, R204). -/
theorem execSend_calls_noBuffer (hv : s.fbValid = false) (h : execSend s = .next t) :
    t.transport.calls = s.transport.calls := by
  obtain rfl := Host.Outcome.next.inj ((execSend_noBuffer hv).symm.trans h)
  rfl

/-- Settles O47: each boundary command puts its one call on the port, and the others leave the port as it is. -/
theorem oneTransportCallPerBoundaryCommand : Obligations.OneTransportCallPerBoundaryCommand := by
  intro s t i h
  constructor
  · rintro (rfl | rfl | ⟨rfl, hv⟩)
    · exact ⟨_, execSetExtHeader_calls h⟩
    · exact ⟨_, execReceive_calls h⟩
    · exact ⟨_, execSend_calls hv h⟩
  · rintro (⟨r, rfl⟩ | ⟨k, rfl⟩ | rfl | ⟨rfl, hv⟩)
    · exact congrArg Transport.calls (execEncode_transport h)
    · obtain ⟨-, -, -, htransport⟩ := execDecodeRtr_frame h
      exact congrArg Transport.calls htransport
    · obtain ⟨-, -, -, htransport⟩ := execExtractPayload_frame h
      exact congrArg Transport.calls htransport
    · exact execSend_calls_noBuffer hv h

/-! How a boundary command follows the transport's answer (R205). -/

theorem endedWith_transportError {u : State} (code : Word) (h : u.record = s.record) :
    EndedWith (.transportError code) 3#32 code s (u.endWith (.transportError code)) :=
  ⟨statusWord_transportError code, rfl, congrArg (CmdOutcome.transportError code :: ·) h⟩

/-- Settles O33: the end of SET_EXT_HEADER on ok and on an error. -/
theorem setExtHeaderFollowsTheTransport : Obligations.SetExtHeaderFollowsTheTransport := by
  intro s
  cases ha : s.headerAnswer with
  | ok =>
    have hexec := execSetExtHeader_ok ha
    exact ⟨_, hexec, execSetExtHeader_calls hexec, fun _ => ⟨endedWith_ok rfl, rfl⟩, nofun⟩
  | err code =>
    have hexec := execSetExtHeader_err ha
    refine ⟨_, hexec, execSetExtHeader_calls hexec, nofun, fun c hc => ?_⟩
    obtain rfl := LinkAnswer.err.inj hc
    exact ⟨endedWith_transportError code rfl, rfl⟩

/-- Settles O34: the end of SEND on ok and on an error; neither writes any state of the block but the outcome. -/
theorem sendHandsOverTheBatch : Obligations.SendHandsOverTheBatch := by
  intro s hv
  cases ha : s.sendAnswer with
  | ok =>
    have hexec := execSend_ok hv ha
    exact ⟨_, hexec, execSend_calls hv hexec, fun _ => endedWith_ok rfl, nofun, rfl⟩
  | err code =>
    have hexec := execSend_err hv ha
    refine ⟨_, hexec, execSend_calls hv hexec, nofun, fun c hc => ?_, rfl⟩
    obtain rfl := LinkAnswer.err.inj hc
    exact endedWith_transportError code rfl

/-- Settles O35: on ok RECEIVE ends through ReplaceFB of the delivered batch. -/
theorem receiveStoresTheBatchAsDelivered : Obligations.ReceiveStoresTheBatchAsDelivered := by
  intro s b ha
  have hexec := execReceive_ok ha
  exact ⟨_, hexec, endedWith_ok rfl, execReceive_calls hexec, rfl, fbInfoWord_valid b.bound, rfl, rfl⟩

/-- Settles O36: on an error RECEIVE ends through InvalidateFB. -/
theorem receiveErrorInvalidatesTheBuffer : Obligations.ReceiveErrorInvalidatesTheBuffer := by
  intro s code ha
  have hexec := execReceive_err ha
  have hinfo : fbInfoWord false 0 = 0#32 := by decide
  exact ⟨_, hexec, endedWith_transportError code rfl, execReceive_calls hexec, rfl, hinfo, rfl, rfl⟩

end Sys2Proof.Machine
end

section
/-! SUPPORT. Which outcome a command ends with, what it writes when that is a precondition fault, and what a step does
to the model's record; and the proofs of the statements of 60_exceptions.md: O44, O46 and O54. -/

namespace Sys2Proof.Machine

variable {s t : State} {i : Instr} {w : Word}

/-! The outcome of each command (R207). -/

/-- A legal ID does not meet ENCODE's first condition (R38, R132). -/
theorem not_illegal_of_idLegal {ext : Bool} {id : ArbId} (h : idLegal ext id = true) :
    ¬ (ext = false ∧ 2 ^ 11 ≤ id.toNat) := by
  rw [← idLegal_eq_false_iff, h]
  decide

theorem execEncode_outcome {r : Bool} (h : execEncode r s = .next t) :
    ∃ o, t.record = o :: s.record ∧ OutcomeByPriority s o (.encode r) := by
  rcases execEncode_next h with ⟨hid, rfl⟩ | ⟨hid, rfl, rfl⟩ | ⟨hid, rfl, hn, _, _, rfl⟩ | ⟨hid, rfl, hn, rfl⟩
  · exact ⟨_, rfl, (if_pos ((idLegal_eq_false_iff _ _).1 hid)).symm⟩
  all_goals
    refine ⟨_, rfl, ?_⟩
    rw [OutcomeByPriority, if_neg (not_illegal_of_idLegal hid)]
  · rfl
  · exact (if_neg (Nat.not_lt.2 hn)).symm
  · exact (if_pos hn).symm

theorem execDecodeRtr_outcome {k : Nat} (h : execDecodeRtr k s = .next t) :
    ∃ o, t.record = o :: s.record ∧ OutcomeByPriority s o (.decodeRtr k) := by
  rcases execDecodeRtr_next h with ⟨hv, rfl⟩ | ⟨hv, hk, rfl⟩ | ⟨hv, f, hf, rfl⟩
  · exact ⟨_, rfl, (if_pos hv).symm⟩
  all_goals
    refine ⟨_, rfl, ?_⟩
    rw [OutcomeByPriority, if_neg (by simp [hv])]
  · exact (if_pos hk).symm
  · obtain ⟨hlt, -⟩ := List.getElem?_eq_some_iff.1 hf
    exact (if_neg (Nat.not_le.2 hlt)).symm

/-- A batch that fails the check of R148 holds a frame with a length field above 8. -/
theorem exists_malformed_of_not_allWellFormed {fs : List Frame} (h : allWellFormed fs = false) :
    ∃ f ∈ fs, 8 < f.dlc.toNat % 16 := by
  rw [← Bool.not_eq_true, allWellFormed_iff] at h
  push Not at h
  exact h

theorem execExtractPayload_outcome (h : execExtractPayload s = .next t) :
    ∃ o, t.record = o :: s.record ∧ OutcomeByPriority s o .extractPayload := by
  rcases execExtractPayload_next h with ⟨hv, rfl⟩ | ⟨hv, hw, rfl⟩ | ⟨hv, hw, rfl⟩
  · exact ⟨_, rfl, .inl ⟨hv, rfl⟩⟩
  · exact ⟨_, rfl, .inr (.inl ⟨hv, exists_malformed_of_not_allWellFormed hw, rfl⟩)⟩
  · exact ⟨_, rfl, .inr (.inr ⟨hv, (allWellFormed_iff _).1 hw, rfl⟩)⟩

theorem execSetExtHeader_outcome (h : execSetExtHeader s = .next t) :
    ∃ o, t.record = o :: s.record ∧ OutcomeByPriority s o .setExtHeader := by
  rcases execSetExtHeader_next h with ⟨ha, rfl⟩ | ⟨code, ha, rfl⟩
  · exact ⟨_, rfl, .inl ⟨ha, rfl⟩⟩
  · exact ⟨_, rfl, .inr ⟨code, ha, rfl⟩⟩

theorem execSend_outcome (h : execSend s = .next t) :
    ∃ o, t.record = o :: s.record ∧ OutcomeByPriority s o .send := by
  rcases execSend_next h with ⟨hv, rfl⟩ | ⟨hv, ha, rfl⟩ | ⟨hv, code, ha, rfl⟩
  · exact ⟨_, rfl, .inl ⟨hv, rfl⟩⟩
  · exact ⟨_, rfl, .inr (.inl ⟨hv, ha, rfl⟩)⟩
  · exact ⟨_, rfl, .inr (.inr ⟨hv, code, ha, rfl⟩)⟩

theorem execReceive_outcome (h : execReceive s = .next t) :
    ∃ o, t.record = o :: s.record ∧ OutcomeByPriority s o .receive := by
  rcases execReceive_next h with ⟨b, ha, rfl⟩ | ⟨code, ha, rfl⟩
  · exact ⟨_, rfl, .inl ⟨⟨b, ha⟩, rfl⟩⟩
  · exact ⟨_, rfl, .inr ⟨code, ha, rfl⟩⟩

/-- Settles O44: command by command, the outcome of each of its ends is the one the conditions of that end select. -/
theorem outcomePriority : Obligations.OutcomePriority := by
  intro s t i h
  cases i with
  | encode r => exact execEncode_outcome h
  | decodeRtr k => exact execDecodeRtr_outcome h
  | extractPayload => exact execExtractPayload_outcome h
  | setExtHeader => exact execSetExtHeader_outcome h
  | send => exact execSend_outcome h
  | receive => exact execReceive_outcome h

/-! Precondition faults (R204). -/

/-- Only a precondition fault has STATUS code 2 (R23). -/
theorem code_statusOf_ne_two {o : CmdOutcome} (h : o.isPrecondFault = false) : (statusOf o).code ≠ 2#2 := by
  cases o with
  | ok => exact (by decide : 0#2 ≠ 2#2)
  | aborted => exact (by decide : 1#2 ≠ 2#2)
  | precondFault c => cases h
  | transportError code => exact (by decide : 3#2 ≠ 2#2)

/-- A command that ends in a precondition fault has written nothing before it, since its checks come first. -/
theorem exec_eq_precondFault_or_code_ne (h : exec i s = .next t) :
    (∃ c, t = s.endWith (.precondFault c)) ∨ t.status.code ≠ 2#2 := by
  cases i with
  | encode r =>
    rcases execEncode_next h with ⟨_, rfl⟩ | ⟨_, _, rfl⟩ | ⟨_, _, _, _, _, rfl⟩ | ⟨_, _, _, rfl⟩
    · exact .inl ⟨_, rfl⟩
    · exact .inr (code_statusOf_ne_two rfl)
    · exact .inr (code_statusOf_ne_two rfl)
    · exact .inr (code_statusOf_ne_two rfl)
  | decodeRtr k =>
    rcases execDecodeRtr_next h with ⟨_, rfl⟩ | ⟨_, _, rfl⟩ | ⟨_, _, _, rfl⟩
    · exact .inl ⟨_, rfl⟩
    · exact .inl ⟨_, rfl⟩
    · exact .inr (code_statusOf_ne_two rfl)
  | extractPayload =>
    rcases execExtractPayload_next h with ⟨_, rfl⟩ | ⟨_, _, rfl⟩ | ⟨_, _, rfl⟩
    · exact .inl ⟨_, rfl⟩
    · exact .inl ⟨_, rfl⟩
    · exact .inr (code_statusOf_ne_two rfl)
  | setExtHeader =>
    rcases execSetExtHeader_next h with ⟨_, rfl⟩ | ⟨_, _, rfl⟩
    · exact .inr (code_statusOf_ne_two rfl)
    · exact .inr (code_statusOf_ne_two rfl)
  | send =>
    rcases execSend_next h with ⟨_, rfl⟩ | ⟨_, _, rfl⟩ | ⟨_, _, _, rfl⟩
    · exact .inl ⟨_, rfl⟩
    · exact .inr (code_statusOf_ne_two rfl)
    · exact .inr (code_statusOf_ne_two rfl)
  | receive =>
    rcases execReceive_next h with ⟨_, _, rfl⟩ | ⟨_, _, rfl⟩
    · exact .inr (code_statusOf_ne_two rfl)
    · exact .inr (code_statusOf_ne_two rfl)

/-- A CMD write that leaves STATUS code 2 has done nothing but end in a precondition fault, whether the decoder or the
command raised it. -/
theorem issueCommand_precondFault (h : issueCommand w s = .next t) (hc : t.status.code = 2#2) :
    ∃ c, t = s.endWith (.precondFault c) := by
  unfold issueCommand at h
  split at h
  · exact (exec_eq_precondFault_or_code_ne h).resolve_right (not_not.2 hc)
  · exact ⟨_, (Host.Outcome.next.inj h).symm⟩

/-- The code and the cause of a precondition fault stand in disjoint bits of STATUS (R22). -/
theorem statusWord_precondFault_or (c : Cause) :
    statusWord (statusOf (.precondFault c)) = 2#32 ||| (causeNumber c <<< 8) := by
  rw [statusWord_precondFault]
  cases c <;> decide

/-- Settles O46: by `issueCommand_precondFault` the write is `State.endWith` of a precondition fault, no more. -/
theorem precondFaultChangesNothingElse : Obligations.PrecondFaultChangesNothingElse := by
  intro s t w h hc
  obtain ⟨c, rfl⟩ := issueCommand_precondFault h hc
  exact ⟨⟨c, rfl, statusWord_precondFault_or c⟩, rfl, rfl, rfl⟩

/-! The model's record (R211). -/

/-- Settles O54: a command adds the outcome it ends with (`exec_ends`), a word turned away adds its fault, and no other
step touches the record. -/
theorem recordNeverLosesAnOutcome : Obligations.RecordNeverLosesAnOutcome := by
  intro s t h
  cases step_cases h with
  | command _ _ _ _ _ _ hexec =>
    obtain ⟨o, u, rfl, hrecord, -⟩ := exec_ends hexec
    exact .inr ⟨o, congrArg (o :: ·) hrecord⟩
  | rejected c ht => exact .inr ⟨.precondFault c, ht ▸ rfl⟩
  | idle ht => exact .inl (ht ▸ rfl)
  | hostOnly _ ht _ => exact .inl (ht ▸ rfl)
  | windowRead _ ht _ => exact .inl (ht ▸ rfl)
  | arbId _ ht => exact .inl (ht ▸ rfl)
  | payloadLen _ ht => exact .inl (ht ▸ rfl)
  | pin _ _ _ ht => exact .inl (ht ▸ rfl)
  | reset _ ht => exact .inl (ht ▸ rfl)

end Sys2Proof.Machine
end

section
/-! SUPPORT. The state a reset leaves (R240), and the proofs of O6, O7 and O8. -/

namespace Sys2Proof.Machine

/-! The words of registers whose fields are all 0. -/

theorem arbIdWord_zero : arbIdWord 0 = 0#32 := by decide

theorem fbInfoWord_invalid_empty : fbInfoWord false 0 = 0#32 := by decide

theorem flagWord_false : flagWord false = 0#32 := by decide

theorem outLenWord_zero : outLenWord 0 = 0#32 := by decide

/-- Settles O6: STATUS reads as after a command that ended OK, every other register has only fields that are 0, and
the three memories hold nothing. -/
theorem resetValuesOfTheRegisters : Obligations.ResetValuesOfTheRegisters :=
  ⟨statusWord_ok, arbIdWord_zero, rfl, fbInfoWord_invalid_empty, flagWord_false, flagWord_false, outLenWord_zero, rfl,
    rfl, fun _ => ⟨rfl, rfl⟩⟩

/-- Settles O7: the line runs `State.resetBlock`, which keeps the transport port, the host and the model's own fields,
and then moves the host on. -/
theorem platformResetRestoresTheBlock : Obligations.PlatformResetRestoresTheBlock := by
  intro s hl
  have hrun : runLine .platformReset s = .next s.resetBlock.advance := rfl
  exact (step_of_nextLine hl).trans hrun

/-- Settles O8: STATUS is that of an OK end, no result flag or output byte is claimed of the empty buffer, and the
memories and the host's temporaries are empty. -/
theorem resetStateMeetsInv : Obligations.ResetStateMeetsInv where
  status_legal := rfl
  transport_code_zero _ := rfl
  invalid_empty _ := rfl
  result_backed := nofun
  out_bound := Nat.zero_le _
  out_backed hout := absurd rfl hout
  pin_wf := ⟨wf_reset.1, rfl⟩
  pout_wf := ⟨wf_reset.2, rfl⟩
  temps_wf := rfl

end Sys2Proof.Machine
end
